-- ==== Sys2Proof/Word.lean ====
section
/-! DEFINITION. The word types of the machine: what the spec treats as bits (rules R7, R8). -/

namespace Sys2Proof

/-- A byte, 8 bits (R7): a general register, a timer, a memory cell, an immediate `kk`. -/
abbrev Byte := BitVec 8

/-- A word, 16 bits (R7): PC, I, a stack entry, an instruction word. -/
abbrev Word := BitVec 16

/-- A nibble, 4 bits: the count `n`, a function nibble, a key symbol (R14, R59, R117). -/
abbrev Nibble := BitVec 4

/-- A register number, the 4-bit field `x` or `y` (R18: every number 0..15 is a valid register). -/
abbrev Reg := BitVec 4

/-- The 12-bit address field `nnn` (R59). -/
abbrev Addr12 := BitVec 12

end Sys2Proof
end

