-- ==== Sys2Proof/Config.lean ====
section
/-! DEFINITION. The constants of rule R6, its three parameters as one argument, and the machine's one free value. The default
FONT and MEM_INIT stand in Machine/Ops.lean, because an unlisted memory address reads as them. -/

namespace Sys2Proof

/-- The highest address of memory M: MEM_SIZE is 4096 bytes, addresses 0x000..0xFFF (R6, R41). -/
abbrev Config.lastAddress : Nat := 0xFFF

/-- FONT_BASE, where the font table lies at power-on (R6, R37). -/
abbrev Config.fontBase : Nat := 0x050

/-- ROM_BASE, where the ROM image lies at power-on, and the entry point (R6, R42). -/
abbrev Config.romBase : Nat := 0x200

/-- ROM_MAX, the largest ROM image in bytes (R6, R145). -/
abbrev Config.romMax : Nat := 3584

/-- The rows of R6 whose kind is "parameter": named arguments of the model. The cycle driver and the host's transactions
take them; every rule that uses a font byte uses it through M only (R37), so no instruction does. -/
structure Parameters where
  /-- STRICT_DECODE: refuse the words that rest on the literal reading of the group strategy (R68). -/
  strictDecode : Bool
  /-- FONT: the 80 font bytes, glyph 0 first (R37). -/
  font : Vector Byte 80
  /-- MEM_INIT: what a byte that neither the font nor the ROM image writes holds at power-on (R42, decision D3). -/
  memInit : Nat → Byte

/-- STRICT_DECODE at its default, false (R6, R68). Every definition that depends on it takes it as an argument; only
`parameters`, for `step`, and `decodeTableWord` fix it to this value (notes/assumptions/4.md). -/
def Config.strictDecode : Bool := false

/-- FREE VALUE. The random byte of the n-th draw for which the host has named no byte: the generator is outside the
core and every value is admitted (R101, decision D25). It has no body that a proof could see
(notes/assumptions/1.md). -/
opaque Config.rnd : Nat → Byte

end Sys2Proof
end

