-- ==== Sys2Proof/Syntax.lean ====
section
/-! DEFINITION. The instructions: one constructor per row of spec/opcode_table.json (R69: 35 operations and the three
undefined-word rows). A field that the operation ignores is kept (`u`, and `y` of the shifts), because a fault record
holds the whole instruction word (R34) and so that no bit of a word is lost in decoding. -/

namespace Sys2Proof

/-- An instruction of the opcode map (R69). -/
inductive Instr where
  /-- 0nnn SYS nnn, the no-op (R79). -/
  | sys (nnn : Addr12)
  /-- 00E0 CLS (R111); `u` are bits 11:8, not examined (R62). -/
  | cls (u : Nibble)
  /-- 00EE RET (R80); `u` are bits 11:8, not examined (R62). -/
  | ret (u : Nibble)
  /-- 1nnn JP nnn (R81). -/
  | jp (nnn : Addr12)
  /-- 2nnn CALL nnn (R82). -/
  | call (nnn : Addr12)
  /-- 3xkk SE Vx, kk (R83). -/
  | seImm (x : Reg) (kk : Byte)
  /-- 4xkk SNE Vx, kk (R84). -/
  | sneImm (x : Reg) (kk : Byte)
  /-- 5xy0 SE Vx, Vy (R85); `u` is the low nibble, not examined (R63). -/
  | seReg (x y : Reg) (u : Nibble)
  /-- 6xkk LD Vx, kk (R90). -/
  | ldImm (x : Reg) (kk : Byte)
  /-- 7xkk ADD Vx, kk (R91). -/
  | addImm (x : Reg) (kk : Byte)
  /-- 8xy0 LD Vx, Vy (R92). -/
  | ldReg (x y : Reg)
  /-- 8xy1 OR Vx, Vy (R93). -/
  | orReg (x y : Reg)
  /-- 8xy2 AND Vx, Vy (R94). -/
  | andReg (x y : Reg)
  /-- 8xy3 XOR Vx, Vy (R95). -/
  | xorReg (x y : Reg)
  /-- 8xy4 ADD Vx, Vy (R96). -/
  | addReg (x y : Reg)
  /-- 8xy5 SUB Vx, Vy (R97). -/
  | subReg (x y : Reg)
  /-- 8xy6 SHR Vx (R98); `y` is ignored. -/
  | shr (x y : Reg)
  /-- 8xy7 SUBN Vx, Vy (R99). -/
  | subnReg (x y : Reg)
  /-- 8xyE SHL Vx (R100); `y` is ignored. -/
  | shl (x y : Reg)
  /-- 9xy0 SNE Vx, Vy (R86); `u` is the low nibble, not examined (R63). -/
  | sneReg (x y : Reg) (u : Nibble)
  /-- Annn LD I, nnn (R103). -/
  | ldI (nnn : Addr12)
  /-- Bnnn JP V0, nnn (R87). -/
  | jpV0 (nnn : Addr12)
  /-- Cxkk RND Vx, kk (R101). -/
  | rnd (x : Reg) (kk : Byte)
  /-- Dxyn DRW Vx, Vy, n (R112). -/
  | drw (x y : Reg) (n : Nibble)
  /-- Ex9E SKP Vx (R118). -/
  | skp (x : Reg)
  /-- ExA1 SKNP Vx (R119). -/
  | sknp (x : Reg)
  /-- Fx07 LD Vx, DT (R120). -/
  | ldFromDelay (x : Reg)
  /-- Fx0A LD Vx, K, the key-wait (R121). -/
  | ldKey (x : Reg)
  /-- Fx15 LD DT, Vx (R122). -/
  | ldDelay (x : Reg)
  /-- Fx18 LD ST, Vx (R123). -/
  | ldSound (x : Reg)
  /-- Fx1E ADD I, Vx (R104). -/
  | addI (x : Reg)
  /-- Fx29 LD F, Vx (R105). -/
  | ldFont (x : Reg)
  /-- Fx33 LD B, Vx (R106). -/
  | ldBcd (x : Reg)
  /-- Fx55 LD [I], Vx (R107). -/
  | storeRegs (x : Reg)
  /-- Fx65 LD Vx, [I] (R108). -/
  | loadRegs (x : Reg)
  /-- Row u8: a group-8 word whose function nibble `fn` is none of 0..7, E; the no-op (R67). -/
  | undef8 (x y : Reg) (fn : Nibble)
  /-- Row uE: a group-E word whose low byte `fn` is neither 9E nor A1; the no-op (R67). -/
  | undefE (x : Reg) (fn : Byte)
  /-- Row uF: a group-F word whose low byte `fn` is none of the nine of R66; the no-op (R67). -/
  | undefF (x : Reg) (fn : Byte)
  deriving DecidableEq, Repr

end Sys2Proof
end

