-- ==== Sys2Proof/WellFormed.lean ====
section
/-! DEFINITION. Which instructions stand for a word: the no-op rows hold only the function values that no more specific
row claims (R62, R64 to R67), and under STRICT_DECODE the unexamined fields are zero (R68). -/

namespace Sys2Proof

/-- The low bytes of group 0 that select an operation other than SYS: CLS and RET (R62). -/
def group0Bytes : List Byte := [0xE0, 0xEE]

/-- The function nibbles of group 8 that select an operation (R64). -/
def group8Nibbles : List Nibble := [0x0, 0x1, 0x2, 0x3, 0x4, 0x5, 0x6, 0x7, 0xE]

/-- The low bytes of group E that select an operation (R65). -/
def groupEBytes : List Byte := [0x9E, 0xA1]

/-- The low bytes of group F that select an operation (R66). -/
def groupFBytes : List Byte := [0x07, 0x0A, 0x15, 0x18, 0x1E, 0x29, 0x33, 0x55, 0x65]

/-- `i` stands for a word that the decoder reads as `i`, under the given STRICT_DECODE. -/
def Instr.wellFormedWith (strict : Bool) : Instr → Bool
  | .sys nnn => !group0Bytes.contains (nnn.setWidth 8)
  | .cls u => !strict || u == 0
  | .ret u => !strict || u == 0
  | .seReg _ _ u => !strict || u == 0
  | .sneReg _ _ u => !strict || u == 0
  | .undef8 _ _ fn => !group8Nibbles.contains fn
  | .undefE _ fn => !groupEBytes.contains fn
  | .undefF _ fn => !groupFBytes.contains fn
  | .jp _ | .call _ | .seImm _ _ | .sneImm _ _ | .ldImm _ _ | .addImm _ _ => true
  | .ldReg _ _ | .orReg _ _ | .andReg _ _ | .xorReg _ _ | .addReg _ _ | .subReg _ _ => true
  | .shr _ _ | .subnReg _ _ | .shl _ _ | .ldI _ | .jpV0 _ | .rnd _ _ | .drw _ _ _ => true
  | .skp _ | .sknp _ | .ldFromDelay _ | .ldKey _ | .ldDelay _ | .ldSound _ => true
  | .addI _ | .ldFont _ | .ldBcd _ | .storeRegs _ | .loadRegs _ => true

/-- Well-formed for this machine's STRICT_DECODE. -/
def Instr.wellFormed (i : Instr) : Bool := i.wellFormedWith Config.strictDecode

end Sys2Proof
end

