-- ==== Sys2Proof/Decode.lean ====
section
/-! DEFINITION. The decoder (R58 to R70), total on any bytes, and after it the encoder, both written from the field
layout of R59 and the opcode map of R69, and the assembler syntax (R71, R72). -/

namespace Sys2Proof

/-- Why bytes decode to no instruction. -/
inductive DecodeError where
  /-- Fewer than the two bytes of an instruction word (R58). -/
  | tooFewBytes
  /-- STRICT_DECODE only: a word whose meaning rests on the literal reading of the group strategy (R68). -/
  | refusedWord (w : Word)
  deriving DecidableEq, Repr

/-! ### The fields of a word (R59) -/

/-- The group, w[15:12]. -/
def groupOf (w : Word) : Nibble := w.extractLsb' 12 4

/-- The field x, w[11:8]. -/
def fieldX (w : Word) : Nibble := w.extractLsb' 8 4

/-- The field y, w[7:4]. -/
def fieldY (w : Word) : Nibble := w.extractLsb' 4 4

/-- The field n, and the function nibble: w[3:0]. -/
def fieldN (w : Word) : Nibble := w.extractLsb' 0 4

/-- The field kk, and the function byte: w[7:0]. -/
def fieldKK (w : Word) : Byte := w.extractLsb' 0 8

/-- The field nnn, w[11:0]. -/
def fieldNNN (w : Word) : Addr12 := w.extractLsb' 0 12

/-! ### Decoding -/

/-- A word whose unexamined field is `u`: `i` under the literal reading; under STRICT_DECODE only where `u` is zero
(R68). -/
def literalReading (strict : Bool) (u : Nibble) (w : Word) (i : Instr) : Except DecodeError Instr :=
  if strict && u != 0 then .error (.refusedWord w) else .ok i

/-- Group 0 disambiguates on the low byte (R62). -/
def decodeGroup0 (strict : Bool) (w : Word) : Except DecodeError Instr :=
  if fieldKK w = 0xE0 then literalReading strict (fieldX w) w (.cls (fieldX w))
  else if fieldKK w = 0xEE then literalReading strict (fieldX w) w (.ret (fieldX w))
  else .ok (.sys (fieldNNN w))

/-- Group 8 disambiguates on the low nibble (R64). -/
def decodeGroup8 (w : Word) : Instr :=
  let x := fieldX w
  let y := fieldY w
  if fieldN w = 0x0 then .ldReg x y
  else if fieldN w = 0x1 then .orReg x y
  else if fieldN w = 0x2 then .andReg x y
  else if fieldN w = 0x3 then .xorReg x y
  else if fieldN w = 0x4 then .addReg x y
  else if fieldN w = 0x5 then .subReg x y
  else if fieldN w = 0x6 then .shr x y
  else if fieldN w = 0x7 then .subnReg x y
  else if fieldN w = 0xE then .shl x y
  else .undef8 x y (fieldN w)

/-- Group E disambiguates on the low byte (R65). -/
def decodeGroupE (w : Word) : Instr :=
  if fieldKK w = 0x9E then .skp (fieldX w)
  else if fieldKK w = 0xA1 then .sknp (fieldX w)
  else .undefE (fieldX w) (fieldKK w)

/-- Group F disambiguates on the low byte (R66). -/
def decodeGroupF (w : Word) : Instr :=
  let x := fieldX w
  if fieldKK w = 0x07 then .ldFromDelay x
  else if fieldKK w = 0x0A then .ldKey x
  else if fieldKK w = 0x15 then .ldDelay x
  else if fieldKK w = 0x18 then .ldSound x
  else if fieldKK w = 0x1E then .addI x
  else if fieldKK w = 0x29 then .ldFont x
  else if fieldKK w = 0x33 then .ldBcd x
  else if fieldKK w = 0x55 then .storeRegs x
  else if fieldKK w = 0x65 then .loadRegs x
  else .undefF x (fieldKK w)

/-- Decode is a total function of the word alone: the group first, then within groups 0, 8, E and F the low byte or low
nibble (R61). The last arm is group F, the one group value left. -/
def decodeWord (strict : Bool) (w : Word) : Except DecodeError Instr :=
  let x := fieldX w
  let y := fieldY w
  let g := groupOf w
  if g = 0x0 then decodeGroup0 strict w
  else if g = 0x1 then .ok (.jp (fieldNNN w))
  else if g = 0x2 then .ok (.call (fieldNNN w))
  else if g = 0x3 then .ok (.seImm x (fieldKK w))
  else if g = 0x4 then .ok (.sneImm x (fieldKK w))
  else if g = 0x5 then literalReading strict (fieldN w) w (.seReg x y (fieldN w))
  else if g = 0x6 then .ok (.ldImm x (fieldKK w))
  else if g = 0x7 then .ok (.addImm x (fieldKK w))
  else if g = 0x8 then .ok (decodeGroup8 w)
  else if g = 0x9 then literalReading strict (fieldN w) w (.sneReg x y (fieldN w))
  else if g = 0xA then .ok (.ldI (fieldNNN w))
  else if g = 0xB then .ok (.jpV0 (fieldNNN w))
  else if g = 0xC then .ok (.rnd x (fieldKK w))
  else if g = 0xD then .ok (.drw x y (fieldN w))
  else if g = 0xE then .ok (decodeGroupE w)
  else .ok (decodeGroupF w)

/-- The instruction word of two bytes, big-endian: the byte at the lower address holds bits 15:8 (R44). -/
def composeWord (hi lo : Byte) : Word := hi ++ lo

/-- The two bytes of a word as memory holds it, the first at the lower address (R44). -/
def wordBytes (w : Word) : List Byte := [w.extractLsb' 8 8, w.extractLsb' 0 8]

/-- Decode the first instruction of some bytes; every instruction is two bytes (R58). The rest of the bytes comes
back. -/
def decode (strict : Bool) : List Byte → Except DecodeError (Instr × List Byte)
  | hi :: lo :: rest => (decodeWord strict (composeWord hi lo)).map (·, rest)
  | _ => .error .tooFewBytes

/-! ### Encoding -/

/-- Format A: `gggg nnnn nnnn nnnn` (R58). -/
def formatA (g : Nibble) (nnn : Addr12) : Word := g ++ nnn

/-- Formats XK, X and N: `gggg xxxx kkkk kkkk`, the low byte an immediate or a function byte (R58). -/
def formatXK (g x : Nibble) (kk : Byte) : Word := g ++ x ++ kk

/-- Formats XY and XYN: `gggg xxxx yyyy nnnn`, the low nibble a count or a function nibble (R58). -/
def formatXYN (g x y n : Nibble) : Word := g ++ x ++ y ++ n

/-- The word of an instruction, by the opcode map (R69). -/
def encode : Instr → Word
  | .sys nnn => formatA 0x0 nnn
  | .cls u => formatXK 0x0 u 0xE0
  | .ret u => formatXK 0x0 u 0xEE
  | .jp nnn => formatA 0x1 nnn
  | .call nnn => formatA 0x2 nnn
  | .seImm x kk => formatXK 0x3 x kk
  | .sneImm x kk => formatXK 0x4 x kk
  | .seReg x y u => formatXYN 0x5 x y u
  | .ldImm x kk => formatXK 0x6 x kk
  | .addImm x kk => formatXK 0x7 x kk
  | .ldReg x y => formatXYN 0x8 x y 0x0
  | .orReg x y => formatXYN 0x8 x y 0x1
  | .andReg x y => formatXYN 0x8 x y 0x2
  | .xorReg x y => formatXYN 0x8 x y 0x3
  | .addReg x y => formatXYN 0x8 x y 0x4
  | .subReg x y => formatXYN 0x8 x y 0x5
  | .shr x y => formatXYN 0x8 x y 0x6
  | .subnReg x y => formatXYN 0x8 x y 0x7
  | .shl x y => formatXYN 0x8 x y 0xE
  | .sneReg x y u => formatXYN 0x9 x y u
  | .ldI nnn => formatA 0xA nnn
  | .jpV0 nnn => formatA 0xB nnn
  | .rnd x kk => formatXK 0xC x kk
  | .drw x y n => formatXYN 0xD x y n
  | .skp x => formatXK 0xE x 0x9E
  | .sknp x => formatXK 0xE x 0xA1
  | .ldFromDelay x => formatXK 0xF x 0x07
  | .ldKey x => formatXK 0xF x 0x0A
  | .ldDelay x => formatXK 0xF x 0x15
  | .ldSound x => formatXK 0xF x 0x18
  | .addI x => formatXK 0xF x 0x1E
  | .ldFont x => formatXK 0xF x 0x29
  | .ldBcd x => formatXK 0xF x 0x33
  | .storeRegs x => formatXK 0xF x 0x55
  | .loadRegs x => formatXK 0xF x 0x65
  | .undef8 x y fn => formatXYN 0x8 x y fn
  | .undefE x fn => formatXK 0xE x fn
  | .undefF x fn => formatXK 0xF x fn

/-! ### Assembler syntax (R71, R72) -/

/-- An operand as an assembler writes it (R71). -/
inductive AsmOperand where
  | reg (x : Reg)
  | addr (nnn : Addr12)
  | byte (kk : Byte)
  | count (n : Nibble)
  | i
  | atI
  | dt
  | st
  | k
  | f
  | b
  deriving DecidableEq, Repr

/-- A hexadecimal digit. -/
def hexDigit (d : Nat) : String :=
  ["0", "1", "2", "3", "4", "5", "6", "7", "8", "9", "A", "B", "C", "D", "E", "F"].getD (d % 16) ""

/-- The text of an operand: registers V0 to VF, the special operands, numbers in hexadecimal with 0x (R71). -/
def AsmOperand.text : AsmOperand → String
  | .reg x => "V" ++ hexDigit x.toNat
  | .addr nnn => "0x" ++ hexDigit (nnn.toNat / 256) ++ hexDigit (nnn.toNat / 16) ++ hexDigit nnn.toNat
  | .byte kk => "0x" ++ hexDigit (kk.toNat / 16) ++ hexDigit kk.toNat
  | .count n => "0x" ++ hexDigit n.toNat
  | .i => "I"
  | .atI => "[I]"
  | .dt => "DT"
  | .st => "ST"
  | .k => "K"
  | .f => "F"
  | .b => "B"

/-- The operands of a shift: y is written only where it is not 0, since `SHR Vx` sets it to 0 (R71). -/
def shiftOperands (x y : Reg) : List AsmOperand := if y = 0 then [.reg x] else [.reg x, .reg y]

/-- The mnemonic and the operands of an instruction (R69, R71); `none` for an undefined word, which is no operation. A
field that the operation ignores is not written, so an assembler leaves it 0. -/
def assembly : Instr → Option (String × List AsmOperand)
  | .sys nnn => some ("SYS", [.addr nnn])
  | .cls _ => some ("CLS", [])
  | .ret _ => some ("RET", [])
  | .jp nnn => some ("JP", [.addr nnn])
  | .call nnn => some ("CALL", [.addr nnn])
  | .seImm x kk => some ("SE", [.reg x, .byte kk])
  | .sneImm x kk => some ("SNE", [.reg x, .byte kk])
  | .seReg x y _ => some ("SE", [.reg x, .reg y])
  | .ldImm x kk => some ("LD", [.reg x, .byte kk])
  | .addImm x kk => some ("ADD", [.reg x, .byte kk])
  | .ldReg x y => some ("LD", [.reg x, .reg y])
  | .orReg x y => some ("OR", [.reg x, .reg y])
  | .andReg x y => some ("AND", [.reg x, .reg y])
  | .xorReg x y => some ("XOR", [.reg x, .reg y])
  | .addReg x y => some ("ADD", [.reg x, .reg y])
  | .subReg x y => some ("SUB", [.reg x, .reg y])
  | .shr x y => some ("SHR", shiftOperands x y)
  | .subnReg x y => some ("SUBN", [.reg x, .reg y])
  | .shl x y => some ("SHL", shiftOperands x y)
  | .sneReg x y _ => some ("SNE", [.reg x, .reg y])
  | .ldI nnn => some ("LD", [.i, .addr nnn])
  | .jpV0 nnn => some ("JP", [.reg 0, .addr nnn])
  | .rnd x kk => some ("RND", [.reg x, .byte kk])
  | .drw x y n => some ("DRW", [.reg x, .reg y, .count n])
  | .skp x => some ("SKP", [.reg x])
  | .sknp x => some ("SKNP", [.reg x])
  | .ldFromDelay x => some ("LD", [.reg x, .dt])
  | .ldKey x => some ("LD", [.reg x, .k])
  | .ldDelay x => some ("LD", [.dt, .reg x])
  | .ldSound x => some ("LD", [.st, .reg x])
  | .addI x => some ("ADD", [.i, .reg x])
  | .ldFont x => some ("LD", [.f, .reg x])
  | .ldBcd x => some ("LD", [.b, .reg x])
  | .storeRegs x => some ("LD", [.atI, .reg x])
  | .loadRegs x => some ("LD", [.reg x, .atI])
  | .undef8 _ _ _ | .undefE _ _ | .undefF _ _ => none

/-- Operands with a comma between them (R71). -/
def operandsText : List AsmOperand → String
  | [] => ""
  | [a] => a.text
  | a :: as => a.text ++ ", " ++ operandsText as

/-- The line of assembly of an instruction: `MNEMONIC operand, operand` (R71). -/
def assemblyText (i : Instr) : Option String :=
  (assembly i).map fun p => if p.2.isEmpty then p.1 else p.1 ++ " " ++ operandsText p.2

/-! ### The opcode map as a table -/

/-- A row of the opcode map: the columns match and mask (R69). -/
structure OpcodeRow where
  value : Word
  mask : Word
  deriving DecidableEq, Repr

/-- A word lies in a row when its masked bits are the row's match. -/
def OpcodeRow.accepts (r : OpcodeRow) (w : Word) : Bool := w &&& r.mask == r.value

/-- How many bits a row examines. "a word matching several rows takes the row whose mask has the most 1 bits" (R69). -/
def OpcodeRow.specificity (r : OpcodeRow) : Nat := ((List.range 16).filter fun k => r.mask.getLsbD k).length

/-- The 38 rows of the opcode map in its order, the three undefined-word rows last (R69). -/
def opcodeTable : List OpcodeRow :=
  [⟨0x0000, 0xF000⟩, ⟨0x00E0, 0xF0FF⟩, ⟨0x00EE, 0xF0FF⟩, ⟨0x1000, 0xF000⟩, ⟨0x2000, 0xF000⟩, ⟨0x3000, 0xF000⟩]
  ++ [⟨0x4000, 0xF000⟩, ⟨0x5000, 0xF000⟩, ⟨0x6000, 0xF000⟩, ⟨0x7000, 0xF000⟩, ⟨0x8000, 0xF00F⟩, ⟨0x8001, 0xF00F⟩]
  ++ [⟨0x8002, 0xF00F⟩, ⟨0x8003, 0xF00F⟩, ⟨0x8004, 0xF00F⟩, ⟨0x8005, 0xF00F⟩, ⟨0x8006, 0xF00F⟩, ⟨0x8007, 0xF00F⟩]
  ++ [⟨0x800E, 0xF00F⟩, ⟨0x9000, 0xF000⟩, ⟨0xA000, 0xF000⟩, ⟨0xB000, 0xF000⟩, ⟨0xC000, 0xF000⟩, ⟨0xD000, 0xF000⟩]
  ++ [⟨0xE09E, 0xF0FF⟩, ⟨0xE0A1, 0xF0FF⟩, ⟨0xF007, 0xF0FF⟩, ⟨0xF00A, 0xF0FF⟩, ⟨0xF015, 0xF0FF⟩, ⟨0xF018, 0xF0FF⟩]
  ++ [⟨0xF01E, 0xF0FF⟩, ⟨0xF029, 0xF0FF⟩, ⟨0xF033, 0xF0FF⟩, ⟨0xF055, 0xF0FF⟩, ⟨0xF065, 0xF0FF⟩]
  ++ [⟨0x8000, 0xF000⟩, ⟨0xE000, 0xF000⟩, ⟨0xF000, 0xF000⟩]

/-- The row of the opcode map an instruction stands in (R69). -/
def opcodeRow : Instr → OpcodeRow
  | .sys _ => ⟨0x0000, 0xF000⟩
  | .cls _ => ⟨0x00E0, 0xF0FF⟩
  | .ret _ => ⟨0x00EE, 0xF0FF⟩
  | .jp _ => ⟨0x1000, 0xF000⟩
  | .call _ => ⟨0x2000, 0xF000⟩
  | .seImm _ _ => ⟨0x3000, 0xF000⟩
  | .sneImm _ _ => ⟨0x4000, 0xF000⟩
  | .seReg _ _ _ => ⟨0x5000, 0xF000⟩
  | .ldImm _ _ => ⟨0x6000, 0xF000⟩
  | .addImm _ _ => ⟨0x7000, 0xF000⟩
  | .ldReg _ _ => ⟨0x8000, 0xF00F⟩
  | .orReg _ _ => ⟨0x8001, 0xF00F⟩
  | .andReg _ _ => ⟨0x8002, 0xF00F⟩
  | .xorReg _ _ => ⟨0x8003, 0xF00F⟩
  | .addReg _ _ => ⟨0x8004, 0xF00F⟩
  | .subReg _ _ => ⟨0x8005, 0xF00F⟩
  | .shr _ _ => ⟨0x8006, 0xF00F⟩
  | .subnReg _ _ => ⟨0x8007, 0xF00F⟩
  | .shl _ _ => ⟨0x800E, 0xF00F⟩
  | .sneReg _ _ _ => ⟨0x9000, 0xF000⟩
  | .ldI _ => ⟨0xA000, 0xF000⟩
  | .jpV0 _ => ⟨0xB000, 0xF000⟩
  | .rnd _ _ => ⟨0xC000, 0xF000⟩
  | .drw _ _ _ => ⟨0xD000, 0xF000⟩
  | .skp _ => ⟨0xE09E, 0xF0FF⟩
  | .sknp _ => ⟨0xE0A1, 0xF0FF⟩
  | .ldFromDelay _ => ⟨0xF007, 0xF0FF⟩
  | .ldKey _ => ⟨0xF00A, 0xF0FF⟩
  | .ldDelay _ => ⟨0xF015, 0xF0FF⟩
  | .ldSound _ => ⟨0xF018, 0xF0FF⟩
  | .addI _ => ⟨0xF01E, 0xF0FF⟩
  | .ldFont _ => ⟨0xF029, 0xF0FF⟩
  | .ldBcd _ => ⟨0xF033, 0xF0FF⟩
  | .storeRegs _ => ⟨0xF055, 0xF0FF⟩
  | .loadRegs _ => ⟨0xF065, 0xF0FF⟩
  | .undef8 _ _ _ => ⟨0x8000, 0xF000⟩
  | .undefE _ _ => ⟨0xE000, 0xF000⟩
  | .undefF _ _ => ⟨0xF000, 0xF000⟩

/-! ### The opcode table's bit numbering -/

/-- The bytes in memory of an instruction whose bits are `w` as spec/opcode_table.json numbers them: one 16-bit word, the
bits above `nbits` zero, laid out big-endian (R44). -/
def tableWordBytes (nbits w : Nat) : List Byte := wordBytes (BitVec.ofNat 16 (w % 2 ^ nbits))

/-- What this machine's decoder reads from the instruction whose bits are `w`. -/
def decodeTableWord (nbits w : Nat) : Option Instr :=
  match decode Config.strictDecode (tableWordBytes nbits w) with
  | .ok (i, _) => some i
  | .error _ => none

end Sys2Proof
end

