-- ==== Sys2Proof/Machine/State.lean ====
section
/-! DEFINITION. The state of the core (R17), the host's transactions and their results (R133), the outcomes of a step
other than a next state, and the state after power-on (R39). -/

namespace Sys2Proof.Machine

/-- Memory M (R32, R41): the cells whose byte differs from what an unlisted address reads as, addresses strictly
rising (`Memory.wf` of Machine/Ops.lean). -/
abbrev Memory := List Host.Cell

/-- The frame buffer D[x][y], 64 columns of 32 one-bit cells (R29, R110). -/
abbrev Display := Vector (Vector Bool 32) 64

/-- The run state (R33). -/
inductive RunState where
  | running
  /-- A fault has been taken; only power-on leaves this state (R127). -/
  | halted
  deriving DecidableEq, Repr

/-- The four faults of the machine (R124). They are state, not outcomes of `step`: taking one gives a next state
(R126). -/
inductive FaultKind where
  | fetchBounds
  | stackOverflow
  | stackUnderflow
  | memoryBounds
  deriving DecidableEq, Repr

/-- The fault record (R34). Its `code` is `FaultKind.code` of its kind (R124). -/
structure FaultRecord where
  kind : FaultKind
  /-- The address of the instruction that faulted, which is where PC is left. -/
  pc : Word
  /-- The instruction word; absent for FetchBounds. -/
  word : Option Word
  /-- The first address out of range, or the stack depth for the stack faults. -/
  addr : Nat
  deriving DecidableEq, Repr

/-- What the host can do to the block, each atomic and between cycles (R133, R134). -/
inductive Transaction where
  /-- PowerOn(rom) (R144). -/
  | powerOn (rom : List Byte)
  /-- Cycle(rnd), with the cycle's random byte named by the host (R73). -/
  | cycle (rnd : Byte)
  /-- SetKey(k) (R135). -/
  | setKey (k : Option Nibble)
  /-- TimerTick (R136). -/
  | timerTick
  /-- ReadDisplay (R138). -/
  | readDisplay
  /-- ReadTimers (R133). -/
  | readTimers
  /-- ReadSound (R137). -/
  | readSound
  /-- ReadFault (R133). -/
  | readFault
  deriving DecidableEq, Repr

/-- The result a transaction gives the host: the column "result" of R133. A refused word is no result but the outcome
`Refusal.refusedWord` of the step. -/
inductive Reply where
  /-- PowerOn built the state. -/
  | ok
  /-- PowerOn was given more than 3584 bytes and built nothing (R145). -/
  | romTooLarge
  /-- The cycle retired its instruction; the frame-ready output (R35, R76). -/
  | retired (frameReady : Bool)
  /-- The cycle took a fault (R126). -/
  | faulted (r : FaultRecord)
  /-- A cycle on a halted core (R77). -/
  | halted
  /-- SetKey and TimerTick have no result. -/
  | done
  /-- The 2048 cells of D. -/
  | display (d : Display)
  /-- (DT, ST). -/
  | timers (dt st : Byte)
  /-- sound_on. -/
  | sound (on : Bool)
  /-- (run, fault record). -/
  | faultStatus (run : RunState) (fault : Option FaultRecord)
  deriving DecidableEq, Repr

/-- The state of the core: the twelve parts of R17, then four fields of the MODEL's own that hold the host's side of the
block (its inputs, and the result it is given): they are no state of the core and no instruction but RND reads one. -/
structure State where
  /-- M (R41). -/
  mem : Memory
  /-- V0..VF (R18). -/
  v : Vector Byte 16
  /-- The index register I (R22). -/
  i : Word
  /-- The program counter PC (R23); while an instruction executes it holds the post-fetch value. -/
  pc : Word
  /-- The stack entries S[0..15] (R25). -/
  stack : Vector Word 16
  /-- The stack depth SP, 0..16 (R25). -/
  sp : Fin 17
  /-- The delay timer DT (R27). -/
  dt : Byte
  /-- The sound timer ST (R28). -/
  st : Byte
  /-- The frame buffer D (R29). -/
  display : Display
  /-- The key latch K (R30). -/
  key : Option Nibble
  /-- The run state (R33). -/
  run : RunState
  /-- The fault record (R34). -/
  fault : Option FaultRecord
  /-- MODEL. The random byte the host named for the current cycle; `none` leaves it free (notes/assumptions/1.md). -/
  rnd : Option Byte
  /-- MODEL. How many draws RND has made: the index of the next free random byte (notes/assumptions/1.md). -/
  draws : Nat
  /-- MODEL. The transactions the host has issued and the block has not performed yet, oldest first
  (notes/assumptions/2.md). -/
  pending : List Transaction
  /-- MODEL. The result of the last transaction, an output (notes/assumptions/3.md). -/
  reply : Option Reply
  deriving DecidableEq, Repr

/-- The reasons a step can stop with a fault: none. Every fault of this hardware is a next state (R126), and no access
reaches memory out of range (R10), so no constructor is needed and nothing raises one; that is safe. -/
inductive Fault
  deriving DecidableEq, Repr

/-- The reasons a step can be refused. -/
inductive Refusal where
  /-- An instruction without a meaning. Raised by no arm of `exec`: every instruction has its meaning. Safe. -/
  | notModelled (mnemonic : String)
  /-- STRICT_DECODE only: the cycle fetched, at `pc`, a word that the strict decoder refuses; there is no successor
  state (R68, R73). Raised by `cycleWith true`. Safe. -/
  | refusedWord (pc : Word) (word : Word)
  deriving DecidableEq, Repr

/-- The state right after PowerOn of an empty ROM image (R39, R144, R145): memory lists nothing, so it holds the font
and MEM_INIT. -/
def State.reset : State where
  mem := []
  v := Vector.replicate 16 0
  i := 0
  pc := 0x200
  stack := Vector.replicate 16 0
  sp := 0
  dt := 0
  st := 0
  display := Vector.replicate 64 (Vector.replicate 32 false)
  key := none
  run := .running
  fault := none
  rnd := none
  draws := 0
  pending := []
  reply := none

end Sys2Proof.Machine
end

