-- ==== Sys2Proof/Machine/Ops.lean ====
section
/-! DEFINITION. The shared operations: memory (R41 to R53), registers (R18), the call stack (R25), the display (R29), and
taking a fault (R126). There is no return from a fault to stand beside it: only PowerOn leaves the Halted state (R127). -/

namespace Sys2Proof.Machine

/-! ### Memory -/

/-- FONT at its default, glyph 0 first, five bytes a glyph, top row first (R37). -/
def fontBytes : List Byte :=
  [0xF0, 0x90, 0x90, 0x90, 0xF0, 0x20, 0x60, 0x20, 0x20, 0x70, 0xF0, 0x10, 0xF0, 0x80, 0xF0]
  ++ [0xF0, 0x10, 0xF0, 0x10, 0xF0, 0x90, 0x90, 0xF0, 0x10, 0x10, 0xF0, 0x80, 0xF0, 0x10, 0xF0]
  ++ [0xF0, 0x80, 0xF0, 0x90, 0xF0, 0xF0, 0x10, 0x20, 0x40, 0x40, 0xF0, 0x90, 0xF0, 0x90, 0xF0]
  ++ [0xF0, 0x90, 0xF0, 0x10, 0xF0, 0xF0, 0x90, 0xF0, 0x90, 0x90, 0xE0, 0x90, 0xE0, 0x90, 0xE0]
  ++ [0xF0, 0x80, 0x80, 0x80, 0xF0, 0xE0, 0x90, 0x90, 0x90, 0xE0, 0xF0, 0x80, 0xF0, 0x80, 0xF0]
  ++ [0xF0, 0x80, 0xF0, 0x80, 0x80]

/-- MEM_INIT at its default (R6, decision D3). -/
def memInit (_a : Nat) : Byte := 0x00

/-- The parameters at their defaults, at which `step` runs (R6; notes/assumptions/4.md, notes/assumptions/8.md). -/
def parameters : Parameters where
  strictDecode := Config.strictDecode
  font := ⟨fontBytes.toArray, rfl⟩
  memInit := memInit

/-- What power-on leaves at an address: the ROM image over the font over MEM_INIT (R39, R42, R144). -/
def powerOnByte (p : Parameters) (rom : List Byte) (a : Nat) : Byte :=
  if Config.romBase ≤ a ∧ a < Config.romBase + rom.length then rom.getD (a - Config.romBase) 0
  else if h : Config.fontBase ≤ a ∧ a < Config.fontBase + 80 then
    have hk : a - Config.fontBase < 80 := by omega
    p.font[a - Config.fontBase]
  else p.memInit a

/-- What an unlisted address reads as: the power-on contents of memory under the default parameters and an empty ROM (R39,
R42). A memory built under other parameters lists the bytes that differ. -/
def unlistedByte (a : Nat) : Byte := powerOnByte parameters [] a

/-- MemRead(a, 1) (R10). Its callers have checked `inRange`. -/
def Memory.read : Memory → Nat → Byte
  | [], a => unlistedByte a
  | (b, v) :: m, a => if a = b then v else Memory.read m a

/-- Put a cell in its place among cells of other addresses. -/
def Memory.insert : Memory → Nat → Byte → Memory
  | [], a, v => [(a, v)]
  | (b, w) :: m, a, v => if a < b then (a, v) :: (b, w) :: m else (b, w) :: Memory.insert m a v

/-- Unlist an address. -/
def Memory.erase (m : Memory) (a : Nat) : Memory := m.filter fun c => c.1 != a

/-- MemWrite(a, 1, v) (R10), in the canonical form. Its callers have checked `inRange`. -/
def Memory.write (m : Memory) (a : Nat) (v : Byte) : Memory :=
  if v = unlistedByte a then m.erase a else (m.erase a).insert a v

/-- Write consecutive bytes from an address on, lowest first. -/
def Memory.writeBytes : Memory → Nat → List Byte → Memory
  | m, _, [] => m
  | m, a, b :: bs => Memory.writeBytes (m.write a b) (a + 1) bs

/-- The memory that reads as `f` at the `n` addresses from `a` on, and elsewhere as an unlisted address reads. -/
def Memory.fill (f : Nat → Byte) : Nat → Nat → Memory
  | _, 0 => []
  | a, n + 1 => if f a = unlistedByte a then Memory.fill f (a + 1) n else (a, f a) :: Memory.fill f (a + 1) n

/-- The memory that PowerOn builds: every one of the 4096 bytes at its power-on value (R144). Proofs read it through
`read_powerOnMemory` and are kept from unfolding its 4096 cells. -/
@[irreducible] def powerOnMemory (p : Parameters) (rom : List Byte) : Memory :=
  Memory.fill (powerOnByte p rom) 0 (Config.lastAddress + 1)

/-- The canonical form: addresses strictly rising and within memory, no cell equal to what an unlisted address reads
as. -/
def Memory.wf (m : Memory) : Bool :=
  decide (m.Pairwise fun c d => c.1 < d.1) && m.all fun c => decide (c.1 ≤ Config.lastAddress) && c.2 != unlistedByte c.1

/-- InRange(a, n), computed without wrap (R11). -/
def inRange (a n : Nat) : Bool := n == 0 || decide (a + n - 1 ≤ Config.lastAddress)

/-- The address a bounds fault records: the lowest address of the range above 0xFFF (R48, R53). -/
def boundsAddr (a : Nat) : Nat := max a 0x1000

/-- One byte of memory, as statements speak of it. -/
def State.read (s : State) (a : Nat) : Byte := s.mem.read a

/-- The `n` bytes from `a` on, `none` unless the whole range is in memory (R48, R49). -/
def State.loadBytes (s : State) (a n : Nat) : Option (List Byte) :=
  if inRange a n then some ((List.range n).map fun k => s.read (a + k)) else none

/-- Store bytes from `a` on, `none` unless the whole range is in memory: nothing moves before the check (R48, R125). -/
def State.storeBytes (s : State) (a : Nat) (bs : List Byte) : Option State :=
  if inRange a bs.length then some { s with mem := s.mem.writeBytes a bs } else none

/-- FetchWord: the two bytes at PC, composed big-endian, at any alignment; `none` where it raises FetchBounds (R44, R46,
R53). -/
def State.fetchWord (s : State) : Option Word :=
  if inRange s.pc.toNat 2 then some (composeWord (s.read s.pc.toNat) (s.read (s.pc.toNat + 1))) else none

/-! ### Registers -/

/-- V[x] (R9, R18). -/
def State.reg (s : State) (x : Reg) : Byte := s.v[x.toNat]'x.isLt

/-- V[x] <- b (R9, R18). -/
def State.setReg (s : State) (x : Reg) (b : Byte) : State := { s with v := s.v.set x.toNat b x.isLt }

/-- The number of VF, the flag destination (R19). -/
def vF : Reg := 0xF

/-- I <- a (R22). -/
def State.setI (s : State) (a : Word) : State := { s with i := a }

/-- PC <- a (R23). -/
def State.setPc (s : State) (a : Word) : State := { s with pc := a }

/-- The cycle's random byte: the one the host named, else a free value (R101). -/
def State.drawByte (s : State) : Byte := s.rnd.getD (Config.rnd s.draws)

/-- Count a draw, so that the next free random byte is another one. -/
def State.countDraw (s : State) : State := { s with draws := s.draws + 1 }

/-! ### Control transfer -/

/-- The advance past the instruction word, before it executes, and the cycle's random input (R73, R74). -/
def State.beginCycle (s : State) (rnd : Option Byte) : State := { s with pc := s.pc + 2, rnd := rnd }

/-- A skip: 2 more on the post-fetch PC when its condition holds (R78). -/
def State.skipIf (s : State) (c : Bool) : State := if c then s.setPc (s.pc + 2) else s

/-- Push(a): `none` where the stack holds 16 entries (R25). -/
def State.push (s : State) (a : Word) : Option State :=
  if h : s.sp.val < 16 then
    some { s with stack := s.stack.set s.sp.val a h, sp := ⟨s.sp.val + 1, Nat.succ_lt_succ h⟩ }
  else none

/-- Pop(): the entry and the state without it, `none` where the stack is empty; the entry keeps its value (R25, R80). -/
def State.pop (s : State) : Option (Word × State) :=
  if h : 0 < s.sp.val then
    have h' : s.sp.val - 1 < 16 := by omega
    some (s.stack[s.sp.val - 1], { s with sp := ⟨s.sp.val - 1, Nat.lt_succ_of_lt h'⟩ })
  else none

/-! ### Faults -/

/-- The code of a fault (R124). -/
def FaultKind.code : FaultKind → Nat
  | .fetchBounds => 1
  | .stackOverflow => 2
  | .stackUnderflow => 3
  | .memoryBounds => 4

/-- The code a fault record holds (R34). -/
def FaultRecord.code (r : FaultRecord) : Nat := r.kind.code

/-- Fault entry: PC at the address of the faulting instruction, the fault record written, the core Halted; everything
else as it was (R12, R126). -/
def State.takeFault (s : State) (pc0 : Word) (kind : FaultKind) (word : Option Word) (addr : Nat) : State :=
  { s with pc := pc0, run := .halted, fault := some ⟨kind, pc0, word, addr⟩ }

/-- `raise` of an executing instruction, whose address is the post-fetch PC less 2 (R12, R73). Its word is the
instruction's encoding, which is the word the cycle fetched (notes/assumptions/5.md). -/
def State.raiseFault (s : State) (kind : FaultKind) (instr : Instr) (addr : Nat) : State :=
  s.takeFault (s.pc - 2) kind (some (encode instr)) addr

/-! ### Display -/

/-- D[x][y]. -/
def Display.cell (d : Display) (x : Fin 64) (y : Fin 32) : Bool := d[x.val][y.val]

/-- D[x][y] <- b. -/
def Display.setCell (d : Display) (x : Fin 64) (y : Fin 32) (b : Bool) : Display :=
  d.set x.val (d[x.val].set y.val b)

/-- The display with every cell unset. -/
def Display.blank : Display := Vector.replicate 64 (Vector.replicate 32 false)

/-- D[x][y] of a state. -/
def State.cell (s : State) (x : Fin 64) (y : Fin 32) : Bool := s.display.cell x y

/-! ### The host's side -/

/-- Give the host the result of a transaction (R133). -/
def State.answer (s : State) (r : Reply) : State := { s with reply := some r }

end Sys2Proof.Machine
end

