-- ==== Sys2Proof/Machine/Operands.lean ====
section
/-! DEFINITION. The operand forms (R60, R109): registers, an 8-bit immediate, a 12-bit address, and I plus a constant. -/

namespace Sys2Proof.Machine

/-- A 12-bit address zero-extended to 16 bits, as it is written to PC or I (R60). -/
def addressOperand (nnn : Addr12) : Word := nnn.setWidth 16

/-- The effective address of byte k of an access: I + k, without wrap (R49, R109). -/
def State.effectiveAddress (s : State) (k : Nat) : Nat := s.i.toNat + k

/-- The target of Bnnn: nnn + V0 on naturals, never reduced to 12 bits (R87, decision D16). -/
def State.indexedTarget (s : State) (nnn : Addr12) : Word := BitVec.ofNat 16 (nnn.toNat + (s.reg 0).toNat)

/-- The address of the glyph of the low nibble of a byte (R105, decision D11). -/
def glyphAddress (b : Byte) : Word := BitVec.ofNat 16 (Config.fontBase + 5 * (b.toNat % 16))

/-- A key symbol as the 8-bit value 0x00..0x0F (R117, R121). -/
def keyByte (k : Nibble) : Byte := k.setWidth 8

/-- The latch holds the key whose symbol is the whole byte `b` (R117, R118). -/
def State.keyIs (s : State) (b : Byte) : Bool :=
  match s.key with
  | none => false
  | some k => keyByte k == b

/-- The three decimal digits of a byte: hundreds, tens, ones (R106). -/
def bcdDigits (b : Byte) : List Byte :=
  [BitVec.ofNat 8 (b.toNat / 100), BitVec.ofNat 8 (b.toNat / 10 % 10), BitVec.ofNat 8 (b.toNat % 10)]

/-- V0..Vx, as Fx55 stores them (R107). -/
def State.regsUpTo (s : State) (x : Reg) : List Byte := s.v.toList.take (x.toNat + 1)

/-- V0, V1, … <- the bytes given, lowest register first; the registers beyond them keep their values (R108). -/
def State.setRegs (s : State) (bs : List Byte) : State :=
  { s with v := Vector.ofFn fun k : Fin 16 => bs.getD k.val (s.v.get k) }

end Sys2Proof.Machine
end

