-- ==== Sys2Proof/Machine/ControlFlow.lean ====
section
/-! DEFINITION. Control flow (R78 to R88): the no-ops, RET, JP, CALL, the skips on registers and immediates, the indexed
jump. PC holds the post-fetch value when a meaning is called (R23). -/

namespace Sys2Proof.Machine

/-- The no-op: nothing; PC keeps the post-fetch value (R79). -/
def State.noOp (s : State) : State := s

/-- 0nnn SYS (R79). -/
def execSys (_nnn : Addr12) (s : State) : Host.Outcome State Fault Refusal := .next s.noOp

/-- Undefined words of group 8 execute as SYS (R67). -/
def execUndef8 (_x _y : Reg) (_fn : Nibble) (s : State) : Host.Outcome State Fault Refusal := .next s.noOp

/-- Undefined words of group E execute as SYS (R67). -/
def execUndefE (_x : Reg) (_fn : Byte) (s : State) : Host.Outcome State Fault Refusal := .next s.noOp

/-- Undefined words of group F execute as SYS (R67). -/
def execUndefF (_x : Reg) (_fn : Byte) (s : State) : Host.Outcome State Fault Refusal := .next s.noOp

/-- 00EE RET: pops PC; StackUnderflow on an empty stack (R80). -/
def execRet (u : Nibble) (s : State) : Host.Outcome State Fault Refusal :=
  match s.pop with
  | some (a, t) => .next (t.setPc a)
  | none => .next (s.raiseFault .stackUnderflow (.ret u) s.sp.val)

/-- 1nnn JP (R81). -/
def execJp (nnn : Addr12) (s : State) : Host.Outcome State Fault Refusal := .next (s.setPc (addressOperand nnn))

/-- 2nnn CALL: pushes the post-fetch PC; StackOverflow with 16 entries in use (R82). -/
def execCall (nnn : Addr12) (s : State) : Host.Outcome State Fault Refusal :=
  match s.push s.pc with
  | some t => .next (t.setPc (addressOperand nnn))
  | none => .next (s.raiseFault .stackOverflow (.call nnn) s.sp.val)

/-- 3xkk SE Vx, kk (R83). -/
def execSeImm (x : Reg) (kk : Byte) (s : State) : Host.Outcome State Fault Refusal := .next (s.skipIf (s.reg x == kk))

/-- 4xkk SNE Vx, kk (R84). -/
def execSneImm (x : Reg) (kk : Byte) (s : State) : Host.Outcome State Fault Refusal := .next (s.skipIf (s.reg x != kk))

/-- 5xy0 SE Vx, Vy (R85). -/
def execSeReg (x y : Reg) (s : State) : Host.Outcome State Fault Refusal := .next (s.skipIf (s.reg x == s.reg y))

/-- 9xy0 SNE Vx, Vy (R86). -/
def execSneReg (x y : Reg) (s : State) : Host.Outcome State Fault Refusal := .next (s.skipIf (s.reg x != s.reg y))

/-- Bnnn JP V0, nnn (R87). -/
def execJpV0 (nnn : Addr12) (s : State) : Host.Outcome State Fault Refusal := .next (s.setPc (s.indexedTarget nnn))

end Sys2Proof.Machine
end

