-- ==== Sys2Proof/Machine/Flags.lean ====
section
/-! DEFINITION. The 8-bit arithmetic and the flag it leaves in VF (R20, R89, R102). Results are computed on integers and
reduced to 8 bits; each flag is computed from the operands before anything is written. -/

namespace Sys2Proof.Machine

/-- Vx + Vy mod 256 (R91, R96). -/
def addResult (a b : Byte) : Byte := BitVec.ofNat 8 (a.toNat + b.toNat)

/-- The carry out of bit 7 (R96). -/
def carryOut (a b : Byte) : Bool := decide (a.toNat + b.toNat > 255)

/-- a - b mod 256 (R97, R99). -/
def subResult (a b : Byte) : Byte := BitVec.ofInt 8 ((a.toNat : Int) - b.toNat)

/-- No borrow in a - b; equal operands do not borrow (R97, decision D15). -/
def noBorrow (a b : Byte) : Bool := decide (b.toNat ≤ a.toNat)

/-- a >> 1 (R98). -/
def shrResult (a : Byte) : Byte := a >>> 1

/-- The bit a right shift puts out: bit 0 (R98). -/
def shrOut (a : Byte) : Bool := a.getLsbD 0

/-- a << 1 mod 256 (R100). -/
def shlResult (a : Byte) : Byte := a <<< 1

/-- The bit a left shift puts out: bit 7 (R100). -/
def shlOut (a : Byte) : Bool := a.getLsbD 7

/-- A flag as VF holds it: 1 or 0 (R20). -/
def flagByte (c : Bool) : Byte := if c then 1 else 0

/-- VF <- the flag, the last step of an operation that has one (R19, R89). -/
def State.setFlag (s : State) (c : Bool) : State := s.setReg vF (flagByte c)

/-- Vx <- result, then VF <- flag: with x = 0xF the flag is what VF holds at the end (R19, R89). -/
def State.setRegThenFlag (s : State) (x : Reg) (b : Byte) (c : Bool) : State := (s.setReg x b).setFlag c

end Sys2Proof.Machine
end

