-- ==== Sys2Proof/Machine/IndexMemory.lean ====
section
/-! DEFINITION. The index register and memory transfer (R103 to R109). An access checks its whole range before any effect
and raises MemoryBounds where it leaves memory (R48); I is never modified by an access. -/

namespace Sys2Proof.Machine

/-- MemoryBounds of the executing instruction `instr`, for an access that starts at I (R48, R124). -/
def State.memoryFault (s : State) (instr : Instr) : State :=
  s.raiseFault .memoryBounds instr (boundsAddr (s.effectiveAddress 0))

/-- Annn LD I, nnn (R103). -/
def execLdI (nnn : Addr12) (s : State) : Host.Outcome State Fault Refusal := .next (s.setI (addressOperand nnn))

/-- Fx1E ADD I, Vx: mod 65536, no flag (R104, decision D10). -/
def execAddI (x : Reg) (s : State) : Host.Outcome State Fault Refusal :=
  .next (s.setI (BitVec.ofNat 16 (s.i.toNat + (s.reg x).toNat)))

/-- Fx29 LD F, Vx (R105). -/
def execLdFont (x : Reg) (s : State) : Host.Outcome State Fault Refusal := .next (s.setI (glyphAddress (s.reg x)))

/-- Fx33 LD B, Vx (R106). -/
def execLdBcd (x : Reg) (s : State) : Host.Outcome State Fault Refusal :=
  match s.storeBytes (s.effectiveAddress 0) (bcdDigits (s.reg x)) with
  | some t => .next t
  | none => .next (s.memoryFault (.ldBcd x))

/-- Fx55 LD [I], Vx (R107). -/
def execStoreRegs (x : Reg) (s : State) : Host.Outcome State Fault Refusal :=
  match s.storeBytes (s.effectiveAddress 0) (s.regsUpTo x) with
  | some t => .next t
  | none => .next (s.memoryFault (.storeRegs x))

/-- Fx65 LD Vx, [I] (R108). -/
def execLoadRegs (x : Reg) (s : State) : Host.Outcome State Fault Refusal :=
  match s.loadBytes (s.effectiveAddress 0) (x.toNat + 1) with
  | some bs => .next (s.setRegs bs)
  | none => .next (s.memoryFault (.loadRegs x))

end Sys2Proof.Machine
end

