-- ==== Sys2Proof/Machine/DisplayEngine.lean ====
section
/-! DEFINITION. The display: CLS, and the XOR draw engine with clipping and collision (R110 to R116). -/

namespace Sys2Proof.Machine

/-- The draw so far: the display, and whether a cell has gone from set to unset (the `c` of R112). -/
abbrev Drawing := Display × Bool

/-- XOR a set sprite bit into the cell at (xx, yy); a cell beyond the display is clipped, not wrapped (R113), and does not
count for the collision (R114). -/
def plotBit (p : Drawing) (xx yy : Nat) : Drawing :=
  if h : xx ≤ 63 ∧ yy ≤ 31 then
    have hx : xx < 64 := by omega
    have hy : yy < 32 := by omega
    let old := p.1.cell ⟨xx, hx⟩ ⟨yy, hy⟩
    (p.1.setCell ⟨xx, hx⟩ ⟨yy, hy⟩ (!old), p.2 || old)
  else p

/-- Bit i of a sprite row counted from the left: bit 7 is the leftmost pixel (R115, decision D21). -/
def spriteBit (row : Byte) (i : Nat) : Bool := row.getLsbD (7 - i)

/-- One sprite row, its columns from the left (R112). -/
def drawRow (row : Byte) (x0 yy : Nat) (p : Drawing) : Drawing :=
  (List.range 8).foldl (fun q i => if spriteBit row i then plotBit q (x0 + i) yy else q) p

/-- The sprite's rows from the top (R112). -/
def drawRows : List Byte → Nat → Nat → Drawing → Drawing
  | [], _, _, p => p
  | row :: rows, x0, yy, p => drawRows rows x0 (yy + 1) (drawRow row x0 yy p)

/-- The column a sprite starts at: the coordinate mod 64 (R112). -/
def startColumn (b : Byte) : Nat := b.toNat % 64

/-- The row a sprite starts at: the coordinate mod 32 (R112). -/
def startRow (b : Byte) : Nat := b.toNat % 32

/-- D <- d (R29). -/
def State.setDisplay (s : State) (d : Display) : State := { s with display := d }

/-- 00E0 CLS; VF is not written (R111). -/
def execCls (_u : Nibble) (s : State) : Host.Outcome State Fault Refusal := .next (s.setDisplay Display.blank)

/-- Dxyn DRW: n bytes from I are range-checked and read, rows that clipping will not draw too (R112, decision D36); VF =
collision, written last. -/
def execDrw (x y : Reg) (n : Nibble) (s : State) : Host.Outcome State Fault Refusal :=
  match s.loadBytes (s.effectiveAddress 0) n.toNat with
  | some rows =>
    let p := drawRows rows (startColumn (s.reg x)) (startRow (s.reg y)) (s.display, false)
    .next ((s.setDisplay p.1).setFlag p.2)
  | none => .next (s.memoryFault (.drw x y n))

end Sys2Proof.Machine
end

