-- ==== Sys2Proof/Machine/KeysTimers.lean ====
section
/-! DEFINITION. Key input and timers (R117 to R123). No instruction writes the key latch (R30). -/

namespace Sys2Proof.Machine

/-- Ex9E SKP Vx (R118). -/
def execSkp (x : Reg) (s : State) : Host.Outcome State Fault Refusal := .next (s.skipIf (s.keyIs (s.reg x)))

/-- ExA1 SKNP Vx (R119). -/
def execSknp (x : Reg) (s : State) : Host.Outcome State Fault Refusal := .next (s.skipIf (!s.keyIs (s.reg x)))

/-- Fx07 LD Vx, DT (R120). -/
def execLdFromDelay (x : Reg) (s : State) : Host.Outcome State Fault Refusal := .next (s.setReg x s.dt)

/-- Fx0A LD Vx, K: with no key latched PC goes back to the instruction's own address; the latch is not cleared (R121,
decision D24). -/
def execLdKey (x : Reg) (s : State) : Host.Outcome State Fault Refusal :=
  match s.key with
  | none => .next (s.setPc (s.pc - 2))
  | some k => .next (s.setReg x (keyByte k))

/-- Fx15 LD DT, Vx (R122). -/
def execLdDelay (x : Reg) (s : State) : Host.Outcome State Fault Refusal := .next { s with dt := s.reg x }

/-- Fx18 LD ST, Vx (R123). -/
def execLdSound (x : Reg) (s : State) : Host.Outcome State Fault Refusal := .next { s with st := s.reg x }

end Sys2Proof.Machine
end

