-- ==== Sys2Proof/Machine/RegisterAlu.lean ====
section
/-! DEFINITION. Register loads and the 8-bit ALU (R89 to R102). Every operand is read before anything is written, and
VF is written last where the operation has a flag (R89). None writes VF as a flag but ADD, SUB, SUBN, SHR, SHL (R20). -/

namespace Sys2Proof.Machine

/-- 6xkk LD Vx, kk (R90). -/
def execLdImm (x : Reg) (kk : Byte) (s : State) : Host.Outcome State Fault Refusal := .next (s.setReg x kk)

/-- 7xkk ADD Vx, kk; no flag (R91). -/
def execAddImm (x : Reg) (kk : Byte) (s : State) : Host.Outcome State Fault Refusal :=
  .next (s.setReg x (addResult (s.reg x) kk))

/-- 8xy0 LD Vx, Vy (R92). -/
def execLdReg (x y : Reg) (s : State) : Host.Outcome State Fault Refusal := .next (s.setReg x (s.reg y))

/-- 8xy1 OR Vx, Vy; no flag (R93). -/
def execOrReg (x y : Reg) (s : State) : Host.Outcome State Fault Refusal := .next (s.setReg x (s.reg x ||| s.reg y))

/-- 8xy2 AND Vx, Vy; no flag (R94). -/
def execAndReg (x y : Reg) (s : State) : Host.Outcome State Fault Refusal := .next (s.setReg x (s.reg x &&& s.reg y))

/-- 8xy3 XOR Vx, Vy; no flag (R95). -/
def execXorReg (x y : Reg) (s : State) : Host.Outcome State Fault Refusal := .next (s.setReg x (s.reg x ^^^ s.reg y))

/-- 8xy4 ADD Vx, Vy; VF = carry (R96). -/
def execAddReg (x y : Reg) (s : State) : Host.Outcome State Fault Refusal :=
  .next (s.setRegThenFlag x (addResult (s.reg x) (s.reg y)) (carryOut (s.reg x) (s.reg y)))

/-- 8xy5 SUB Vx, Vy: Vx - Vy; VF = no borrow (R97). -/
def execSubReg (x y : Reg) (s : State) : Host.Outcome State Fault Refusal :=
  .next (s.setRegThenFlag x (subResult (s.reg x) (s.reg y)) (noBorrow (s.reg x) (s.reg y)))

/-- 8xy6 SHR Vx; VF = the bit shifted out (R98, decision D12: Vy is ignored). -/
def execShr (x _y : Reg) (s : State) : Host.Outcome State Fault Refusal :=
  .next (s.setRegThenFlag x (shrResult (s.reg x)) (shrOut (s.reg x)))

/-- 8xy7 SUBN Vx, Vy: Vy - Vx; VF = no borrow (R99). -/
def execSubnReg (x y : Reg) (s : State) : Host.Outcome State Fault Refusal :=
  .next (s.setRegThenFlag x (subResult (s.reg y) (s.reg x)) (noBorrow (s.reg y) (s.reg x)))

/-- 8xyE SHL Vx; VF = the bit shifted out (R100, decision D12: Vy is ignored). -/
def execShl (x _y : Reg) (s : State) : Host.Outcome State Fault Refusal :=
  .next (s.setRegThenFlag x (shlResult (s.reg x)) (shlOut (s.reg x)))

/-- Cxkk RND Vx, kk: the cycle's random byte under the mask (R101). -/
def execRnd (x : Reg) (kk : Byte) (s : State) : Host.Outcome State Fault Refusal :=
  .next ((s.setReg x (s.drawByte &&& kk)).countDraw)

end Sys2Proof.Machine
end

