-- ==== Sys2Proof/Machine/Cycle.lean ====
section
/-! DEFINITION. The cycle driver (R73 to R77) and the host's transactions (R133 to R138, R144 to R147). -/

namespace Sys2Proof.Machine

/-- The operations whose retirement signals frame-ready: CLS and DRW (R76, decision D19). -/
def frameReady : Instr → Bool
  | .cls _ => true
  | .drw _ _ _ => true
  | _ => false

/-- The result of the cycle that executed an instruction: Faulted where it took a fault, else Retired (R73). -/
def State.cycleReply (t : State) (ready : Bool) : Reply :=
  match t.run, t.fault with
  | .halted, some r => .faulted r
  | .halted, none => .halted
  | .running, _ => .retired ready

/-- Give the host the result of the cycle that executed `i`. -/
def finishCycle (i : Instr) : Host.Outcome State Fault Refusal → Host.Outcome State Fault Refusal
  | .next t => .next (t.answer (t.cycleReply (frameReady i)))
  | .fault f => .fault f
  | .refused r => .refused r

/-- FetchBounds: the cycle whose instruction word cannot be fetched; PC is not advanced and no word is recorded (R53,
R124). -/
def State.fetchFault (s : State) : State :=
  s.takeFault s.pc .fetchBounds none (boundsAddr s.pc.toNat)

/-- Cycle(rnd) under a STRICT_DECODE: fetch, advance, decode, execute; `rnd` is `none` where the host names no byte
(R73). -/
def cycleWith (strict : Bool) (rnd : Option Byte) (s : State) : Host.Outcome State Fault Refusal :=
  match s.run with
  | .halted => .next (s.answer .halted)
  | .running =>
    match s.fetchWord with
    | none => .next (s.fetchFault.answer (s.fetchFault.cycleReply false))
    | some w =>
      match decodeWord strict w with
      | .error _ => .refused (.refusedWord s.pc w)
      | .ok i => finishCycle i (exec i (s.beginCycle rnd))

/-- SetKey(k) (R135). -/
def State.setKey (s : State) (k : Option Nibble) : State := { s with key := k }

/-- One tick of a timer: one less, and 0 stays 0 (R136, decision D17). -/
def tickTimer (b : Byte) : Byte := if b = 0 then 0 else b - 1

/-- TimerTick: both timers (R136). -/
def State.timerTick (s : State) : State := { s with dt := tickTimer s.dt, st := tickTimer s.st }

/-- sound_on (R137). -/
def State.soundOn (s : State) : Bool := s.st != 0

/-- The state PowerOn builds from a ROM image (R39, R144). The host's side of the model goes on: what it has yet to do, and
which random bytes have been used (notes/assumptions/13.md). -/
def State.poweredOn (p : Parameters) (s : State) (rom : List Byte) : State :=
  { State.reset with mem := powerOnMemory p rom, draws := s.draws, pending := s.pending }

/-- PowerOn(rom): an image of more than 3584 bytes builds no state and changes nothing (R144, R145). -/
def State.powerOn (p : Parameters) (s : State) (rom : List Byte) : State :=
  if rom.length > Config.romMax then s.answer .romTooLarge else (s.poweredOn p rom).answer .ok

/-- Perform one transaction, under the given parameters (R6, R133). -/
def transact (p : Parameters) (t : Transaction) (s : State) : Host.Outcome State Fault Refusal :=
  match t with
  | .powerOn rom => .next (s.powerOn p rom)
  | .cycle rnd => cycleWith p.strictDecode (some rnd) s
  | .setKey k => .next ((s.setKey k).answer .done)
  | .timerTick => .next (s.timerTick.answer .done)
  | .readDisplay => .next (s.answer (.display s.display))
  | .readTimers => .next (s.answer (.timers s.dt s.st))
  | .readSound => .next (s.answer (.sound s.soundOn))
  | .readFault => .next (s.answer (.faultStatus s.run s.fault))

/-- The next transaction, under the given parameters: the oldest pending one, and with none pending a Cycle whose random
byte is left free (notes/assumptions/2.md). -/
def stepWith (p : Parameters) (s : State) : Host.Outcome State Fault Refusal :=
  match s.pending with
  | [] => cycleWith p.strictDecode none s
  | t :: rest => transact p t { s with pending := rest }

/-- The state in which the next step is a Cycle that fetches the two bytes given: they stand at PC, nothing else is
pending, and the core is running. A PC no word can be fetched from is set to the entry point. -/
def State.placeAtFetch (s : State) (bytes : List Byte) : State :=
  let pc := if inRange s.pc.toNat 2 then s.pc else BitVec.ofNat 16 Config.romBase
  { s with mem := s.mem.writeBytes pc.toNat bytes, pc := pc, pending := [], run := .running, fault := none }

end Sys2Proof.Machine
end

