-- ==== Sys2Proof/Machine/Step.lean ====
section
/-! DEFINITION. One step of the machine, and the placing of an instruction where the next step fetches it. -/

namespace Sys2Proof.Machine

/-- One step: one transaction of the host, or a Cycle where none is pending (R133, R134), under the default parameters. -/
def step (s : State) : Host.Outcome State Fault Refusal := stepWith parameters s

/-- `s` with the instruction whose bits are `w`, as spec/opcode_table.json numbers them, where the next step fetches. -/
def State.withFetchWord (s : State) (nbits w : Nat) : State := s.placeAtFetch (tableWordBytes nbits w)

end Sys2Proof.Machine
end

