-- ==== Sys2Proof/Safety.lean ====
section
/-! DEFINITION. What counts as a good state and a safe run, and the words in which statements say what an instruction
changes, what it may read, and when it faults. -/

namespace Sys2Proof.Machine

/-! ### Parts of the state -/

/-- A part of the state, as fine as an instruction can write: one register, one byte of memory, one display cell, one
stack entry. The last four are the model's own fields. -/
inductive Part where
  | reg (r : Reg)
  | byte (a : Nat)
  | cell (x : Fin 64) (y : Fin 32)
  | entry (k : Fin 16)
  | i
  | pc
  | sp
  | dt
  | st
  | key
  | run
  | fault
  | rnd
  | draws
  | pending
  | reply
  deriving DecidableEq, Repr

/-- The part holds the same in both states. -/
def Part.same (s t : State) : Part → Prop
  | .reg r => t.reg r = s.reg r
  | .byte a => t.read a = s.read a
  | .cell x y => t.cell x y = s.cell x y
  | .entry k => t.stack.get k = s.stack.get k
  | .i => t.i = s.i
  | .pc => t.pc = s.pc
  | .sp => t.sp = s.sp
  | .dt => t.dt = s.dt
  | .st => t.st = s.st
  | .key => t.key = s.key
  | .run => t.run = s.run
  | .fault => t.fault = s.fault
  | .rnd => t.rnd = s.rnd
  | .draws => t.draws = s.draws
  | .pending => t.pending = s.pending
  | .reply => t.reply = s.reply

/-- From `s` to `t` nothing changes but the parts that `written` names. -/
def Frame (s t : State) (written : Part → Prop) : Prop := ∀ p, ¬ written p → p.same s t

/-- The parts of a list, as a frame names them. -/
def These (ps : List Part) : Part → Prop := fun p => p ∈ ps

/-- The `n` bytes of memory from `a` on, as a frame names them. -/
def TheseBytes (a n : Nat) : Part → Prop := fun p => ∃ k, k < n ∧ p = .byte (a + k)

/-! ### Faults -/

/-- The fault the executing instruction has, if any, with the address its record holds: the table of R124 less FetchBounds,
which no instruction raises. -/
def faultOf (i : Instr) (s : State) : Option (FaultKind × Nat) :=
  match i with
  | .call _ => if s.sp.val = 16 then some (.stackOverflow, 16) else none
  | .ret _ => if s.sp.val = 0 then some (.stackUnderflow, 0) else none
  | .drw _ _ n => if inRange s.i.toNat n.toNat then none else some (.memoryBounds, max s.i.toNat 0x1000)
  | .ldBcd _ => if inRange s.i.toNat 3 then none else some (.memoryBounds, max s.i.toNat 0x1000)
  | .storeRegs x => if inRange s.i.toNat (x.toNat + 1) then none else some (.memoryBounds, max s.i.toNat 0x1000)
  | .loadRegs x => if inRange s.i.toNat (x.toNat + 1) then none else some (.memoryBounds, max s.i.toNat 0x1000)
  | _ => none

/-- The fault record fits the state that is halted on it: its pc is PC, its word is the word at PC, and its kind, word
and address are those of a row of R124. -/
def FaultRecord.fits (r : FaultRecord) (s : State) : Prop :=
  r.pc = s.pc ∧ r.word = s.fetchWord ∧
  match r.kind with
  | .fetchBounds => s.fetchWord = none ∧ r.addr = max s.pc.toNat 0x1000
  | .stackOverflow => (∃ w, s.fetchWord = some w ∧ groupOf w = 0x2) ∧ s.sp.val = 16 ∧ r.addr = 16
  | .stackUnderflow => (∃ w, s.fetchWord = some w ∧ groupOf w = 0x0 ∧ fieldKK w = 0xEE) ∧ s.sp.val = 0 ∧ r.addr = 0
  | .memoryBounds =>
    (∃ w, s.fetchWord = some w ∧
      (groupOf w = 0xD ∨ groupOf w = 0xF ∧ fieldKK w ∈ ([0x33, 0x55, 0x65] : List Byte))) ∧
    r.addr = max s.i.toNat 0x1000

/-! ### Good states -/

/-- The invariant of the machine. Memory is in its canonical form; PC is at most 0x10FE, the furthest an indexed jump
reaches (R24, R87); every stack entry is at most 0x1000, a post-fetch PC (R80); the core is halted exactly when it holds
a fault record (R33, R34), and that record fits the state. The bounds of R38 hold by the types. -/
structure State.Inv (s : State) : Prop where
  memory : s.mem.wf = true
  pc : s.pc.toNat ≤ 0x10FE
  stack : ∀ k : Fin 16, (s.stack.get k).toNat ≤ 0x1000
  halted : s.run = .halted ↔ s.fault.isSome = true
  record : ∀ r, s.fault = some r → r.fits s

/-- A state that a correct run may end in: no fault recorded (R127). -/
def State.Safe (s : State) : Prop := s.run = .running ∧ s.fault = none

/-! ### What the tables of R20 and R21 say -/

/-- The parts an operation writes when it takes no fault: the column "writes" of R21, with the flag of R20, and PC for
every operation that may transfer control (R74, R78). R21 has no row for CLS, RET, JP, CALL and LD I: theirs are from
R111, R80, R81, R82, R103. RND counts its draw. -/
def writesOf (i : Instr) (s : State) : Part → Prop :=
  match i with
  | .sys _ | .undef8 _ _ _ | .undefE _ _ | .undefF _ _ => These []
  | .cls _ => fun p => ∃ cx cy, p = .cell cx cy
  | .ret _ => These [.pc, .sp]
  | .call _ => fun p => p = .pc ∨ p = .sp ∨ ∃ k : Fin 16, k.val = s.sp.val ∧ p = .entry k
  | .jp _ | .jpV0 _ | .seImm _ _ | .sneImm _ _ | .seReg _ _ _ | .sneReg _ _ _ | .skp _ | .sknp _ => These [.pc]
  | .ldImm x _ | .addImm x _ | .ldReg x _ | .orReg x _ | .andReg x _ | .xorReg x _ | .ldFromDelay x => These [.reg x]
  | .addReg x _ | .subReg x _ | .shr x _ | .subnReg x _ | .shl x _ => These [.reg x, .reg vF]
  | .rnd x _ => These [.reg x, .draws]
  | .drw _ _ _ => fun p => p = .reg vF ∨ ∃ cx cy, p = .cell cx cy
  | .ldKey x => These [if s.key = none then .pc else .reg x]
  | .ldDelay _ => These [.dt]
  | .ldSound _ => These [.st]
  | .ldI _ | .addI _ | .ldFont _ => These [.i]
  | .ldBcd _ => TheseBytes s.i.toNat 3
  | .storeRegs x => TheseBytes s.i.toNat (x.toNat + 1)
  | .loadRegs x => fun p => ∃ r : Reg, r ≤ x ∧ p = .reg r

/-- The parts an operation's effect may depend on: the column "reads" of R21, with PC for what is relative to it, and the
random input for RND. R21 has no row for CLS, RET, JP, CALL and LD I: theirs are from R111, R80, R81, R82, R103. -/
def readsOf (i : Instr) (s : State) : Part → Prop :=
  match i with
  | .sys _ | .undef8 _ _ _ | .undefE _ _ | .undefF _ _ => These []
  | .cls _ | .jp _ | .ldImm _ _ | .ldI _ => These []
  | .ret _ => fun p => p = .pc ∨ p = .sp ∨ ∃ k : Fin 16, k.val + 1 = s.sp.val ∧ p = .entry k
  | .call _ => These [.pc, .sp]
  | .jpV0 _ => These [.reg 0]
  | .seImm x _ | .sneImm x _ => These [.pc, .reg x]
  | .seReg x y _ | .sneReg x y _ => These [.pc, .reg x, .reg y]
  | .skp x | .sknp x => These [.pc, .key, .reg x]
  | .addImm x _ | .shr x _ | .shl x _ | .ldDelay x | .ldSound x | .ldFont x => These [.reg x]
  | .ldReg _ y => These [.reg y]
  | .orReg x y | .andReg x y | .xorReg x y | .addReg x y | .subReg x y | .subnReg x y => These [.reg x, .reg y]
  | .rnd _ _ => These [.rnd, .draws]
  | .drw x y n => fun p =>
    p ∈ [Part.pc, .i, .reg x, .reg y] ∨ TheseBytes s.i.toNat n.toNat p ∨ ∃ cx cy, p = .cell cx cy
  | .ldFromDelay _ => These [.dt]
  | .ldKey _ => These [.pc, .key]
  | .addI x => These [.i, .reg x]
  | .ldBcd x => These [.pc, .i, .reg x]
  | .storeRegs x => fun p => p = .pc ∨ p = .i ∨ ∃ r : Reg, r ≤ x ∧ p = .reg r
  | .loadRegs x => fun p => p = .pc ∨ p = .i ∨ TheseBytes s.i.toNat (x.toNat + 1) p

/-! ### Words -/

/-- The no-op words of R67, written from its list. -/
def IsNoOpWord (w : Word) : Prop :=
  groupOf w = 0x0 ∧ fieldKK w ∉ ([0xE0, 0xEE] : List Byte) ∨
  groupOf w = 0x8 ∧ fieldN w ∈ ([0x8, 0x9, 0xA, 0xB, 0xC, 0xD, 0xF] : List Nibble) ∨
  groupOf w = 0xE ∧ fieldKK w ∉ ([0x9E, 0xA1] : List Byte) ∨
  groupOf w = 0xF ∧ fieldKK w ∉ ([0x07, 0x0A, 0x15, 0x18, 0x1E, 0x29, 0x33, 0x55, 0x65] : List Byte)

/-- The instructions that execute as the no-op: SYS and the three undefined-word rows (R67, R79). -/
def isNoOp : Instr → Bool
  | .sys _ | .undef8 _ _ _ | .undefE _ _ | .undefF _ _ => true
  | _ => false

/-- The words whose meaning rests only on the literal reading of the group strategy (R68). -/
def IsLiteralWord (w : Word) : Prop :=
  groupOf w = 0x0 ∧ fieldKK w ∈ ([0xE0, 0xEE] : List Byte) ∧ fieldX w ≠ 0 ∨
  (groupOf w = 0x5 ∨ groupOf w = 0x9) ∧ fieldN w ≠ 0

/-! ### States that differ where no program can see -/

/-- The two states are the same but for stack entries that are not in use (R39, R80). -/
def SameButStaleEntries (s t : State) : Prop :=
  t = { s with stack := t.stack } ∧ ∀ k : Fin 16, k.val < s.sp.val → t.stack.get k = s.stack.get k

/-! ### The sprite as a picture -/

/-- The sprite of DRW Vx, Vy, n sets the cell (cx, cy): the cell lies within the sprite's eight columns and n rows, and its
bit, counted from the left, is set in its row's byte (R110, R112, R115). Nothing wraps (R113). -/
def State.spriteSets (s : State) (x y : Reg) (n : Nibble) (cx : Fin 64) (cy : Fin 32) : Prop :=
  let x0 := (s.reg x).toNat % 64
  let y0 := (s.reg y).toNat % 32
  x0 ≤ cx.val ∧ cx.val < x0 + 8 ∧ y0 ≤ cy.val ∧ cy.val < y0 + n.toNat ∧
  (s.read (s.i.toNat + (cy.val - y0))).getLsbD (7 - (cx.val - x0)) = true

end Sys2Proof.Machine
end

