-- ==== Sys2Proof/Certificates/Slice0/Obligations.lean ====
section
/-! DEFINITION. The statements for the provers. Each docstring names the rule of spec/ it formalises; a statement that
rests on a decision of the spec's own (D<n> of spec/92_eei_decisions.md) says so. -/

open Sys2Proof Sys2Proof.Machine

/-! ### Decoding -/

/-- Words written out from the opcode map of R69 decode to the instructions they stand for: one of each format and
group, and the no-op words of the map's last rows. -/
def Obligations.SampleWordsDecode : Prop :=
  decodeWord false 0x0123 = .ok (.sys 0x123) ∧ decodeWord false 0x03E0 = .ok (.cls 0x3) ∧
  decodeWord false 0x00EE = .ok (.ret 0x0) ∧ decodeWord false 0x1228 = .ok (.jp 0x228) ∧
  decodeWord false 0x3310 = .ok (.seImm 0x3 0x10) ∧ decodeWord false 0x5121 = .ok (.seReg 0x1 0x2 0x1) ∧
  decodeWord false 0x8457 = .ok (.subnReg 0x4 0x5) ∧ decodeWord false 0x8128 = .ok (.undef8 0x1 0x2 0x8) ∧
  decodeWord false 0xD015 = .ok (.drw 0x0 0x1 0x5) ∧ decodeWord false 0xE1A1 = .ok (.sknp 0x1) ∧
  decodeWord false 0xFA29 = .ok (.ldFont 0xA) ∧ decodeWord false 0xFFFF = .ok (.undefF 0xF 0xFF)

/-- Decode and encode agree, one way: the bytes of a well-formed instruction, as memory holds them (R44), decode to it and
leave the rest of the bytes, under either STRICT_DECODE, with every operand at every value (R58, R59, R69). -/
def Obligations.DecodeInvertsEncode : Prop :=
  ∀ (strict : Bool) (i : Instr) (rest : List Byte), i.wellFormedWith strict = true →
    decode strict (wordBytes (encode i) ++ rest) = .ok (i, rest)

/-- Decode and encode agree, the other way: a word that decodes decodes to a well-formed instruction whose encoding is
that word, so that no bit of a word is lost. -/
def Obligations.EncodeInvertsDecode : Prop :=
  ∀ (strict : Bool) (w : Word) (i : Instr), decodeWord strict w = .ok i →
    encode i = w ∧ i.wellFormedWith strict = true

/-- R69: the row a word decodes to is the one row of the opcode map, among those that accept the word, whose mask has the
most 1 bits. -/
def Obligations.DecodeTakesTheMostSpecificRow : Prop :=
  ∀ (w : Word) (i : Instr), decodeWord false w = .ok i →
    opcodeRow i ∈ opcodeTable ∧ (opcodeRow i).accepts w = true ∧
    ∀ r ∈ opcodeTable, r.accepts w = true → r = opcodeRow i ∨ r.specificity < (opcodeRow i).specificity

/-- R62, R63, R68 (decision D26): with STRICT_DECODE false, group 0 looks at the low byte only and groups 5 and 9 at the
group only; with it true, the words whose meaning rests on that reading are refused, the cycle that fetches one ends with
Refused(pc, word) and no next state, and every other word decodes as before. -/
def Obligations.StrictDecodeRefusesTheLiteralWords : Prop :=
  (∀ w : Word,
    (groupOf w = 0x0 → decodeWord false w = .ok
      (if fieldKK w = 0xE0 then .cls (fieldX w) else if fieldKK w = 0xEE then .ret (fieldX w) else .sys (fieldNNN w))) ∧
    (groupOf w = 0x5 → decodeWord false w = .ok (.seReg (fieldX w) (fieldY w) (fieldN w))) ∧
    (groupOf w = 0x9 → decodeWord false w = .ok (.sneReg (fieldX w) (fieldY w) (fieldN w))) ∧
    (IsLiteralWord w → decodeWord true w = .error (.refusedWord w)) ∧
    (¬ IsLiteralWord w → decodeWord true w = decodeWord false w)) ∧
  ∀ (r : Option Byte) (s : State) (w : Word), s.run = .running → s.fetchWord = some w → IsLiteralWord w →
    cycleWith true r s = .refused (.refusedWord s.pc w)

/-- R67, R79: no word is illegal; the words that decode to a no-op are exactly those of R67's list, and a no-op leaves the
state, with its post-fetch PC, as it is. -/
def Obligations.NoOpWordsAreExactlyTheListed : Prop :=
  (∀ w : Word, ∃ i, decodeWord false w = .ok i ∧ (isNoOp i = true ↔ IsNoOpWord w)) ∧
  ∀ (i : Instr) (s : State), isNoOp i = true → exec i s = .next s

/-- R71, R72 (decision D35): no line of assembly stands for two operations: two instructions that are written alike stand
in the same row of the opcode map. -/
def Obligations.AssemblyNamesOneOperation : Prop :=
  ∀ (i j : Instr) (a : String × List AsmOperand), assembly i = some a → assembly j = some a → opcodeRow i = opcodeRow j

/-! ### The cycle -/

/-- A step runs the decoded instruction. Where the core is running and the two bytes at PC decode to `i`, and the next
transaction is a Cycle (none is pending, notes/assumptions/2.md, or the oldest pending one is a Cycle that names its
random byte), the step is
`exec i` at the state whose PC is 2 further and whose random input is the cycle's, and then only the reply is set:
Retired with frame-ready for CLS and DRW, or Faulted with the record the instruction left. -/
def Obligations.StepRunsTheDecodedInstruction : Prop :=
  ∀ (s : State) (i : Instr) (r : Option Byte) (rest : List Transaction),
    s.run = .running → s.pc.toNat ≤ 0xFFE →
    decode Config.strictDecode [s.read s.pc.toNat, s.read (s.pc.toNat + 1)] = .ok (i, []) →
    ((r = none ∧ s.pending = [] ∧ rest = []) ∨ ∃ b, r = some b ∧ s.pending = .cycle b :: rest) →
    ∀ t, exec i { s with pc := s.pc + 2, rnd := r, pending := rest } = .next t →
      ∃ q, step s = .next { t with reply := some q } ∧
        (t.run = .running → q = .retired (frameReady i)) ∧
        (∀ f, t.run = .halted → t.fault = some f → q = .faulted f)

/-- R77: a cycle on a halted core changes nothing and returns Halted, whatever its random input and STRICT_DECODE. -/
def Obligations.HaltedCycleChangesNothing : Prop :=
  ∀ (strict : Bool) (r : Option Byte) (s : State), s.run = .halted →
    ∃ t, cycleWith strict r s = .next t ∧ t.reply = some .halted ∧ Frame s t (These [.reply]) ∧ t.mem = s.mem

/-- R53, R46 (decisions D4, D5): a fetch reads the byte at PC as bits 15:8 and the byte after it as bits 7:0, at any
alignment, and a fetch that would pass 0xFFF raises FetchBounds: the record holds PC, no word, and max(PC, 0x1000), the
core is halted, and nothing else changes. -/
def Obligations.FetchReadsTwoBytesOrFaults : Prop :=
  (∀ s : State, s.pc.toNat ≤ 0xFFE → ∃ w, s.fetchWord = some w ∧
    w.toNat = (s.read s.pc.toNat).toNat * 256 + (s.read (s.pc.toNat + 1)).toNat) ∧
  ∀ (strict : Bool) (r : Option Byte) (s : State), s.run = .running → 0xFFE < s.pc.toNat →
    ∃ t f, cycleWith strict r s = .next t ∧ f = ⟨.fetchBounds, s.pc, none, max s.pc.toNat 0x1000⟩ ∧
      t.run = .halted ∧ t.fault = some f ∧ t.reply = some (.faulted f) ∧ Frame s t (These [.run, .fault, .reply])

/-- No step stops the model: with STRICT_DECODE at its default false (decision D26, notes/assumptions/4.md), every step from
every state answers a next state, a fault included (notes/assumptions/9.md). -/
def Obligations.EveryStepAnswersANextState : Prop :=
  ∀ s : State, ∃ t, step s = .next t

/-- R124, R126 (decisions D4, D6 to D9): the four faults, their codes, who raises each and when, and fault entry. A cycle
whose instruction has one of R124's conditions leaves everything as it was but for the fault record {kind, pc0, word,
addr} and the run state, with PC at the instruction; every other instruction retires and records no fault. -/
def Obligations.FaultsAreExactlyTheListedAndPrecise : Prop :=
  FaultKind.code .fetchBounds = 1 ∧ FaultKind.code .stackOverflow = 2 ∧
  FaultKind.code .stackUnderflow = 3 ∧ FaultKind.code .memoryBounds = 4 ∧
  (∀ (strict : Bool) (r : Option Byte) (s : State), s.run = .running → s.fetchWord = none →
    ∃ f : FaultRecord, f = ⟨.fetchBounds, s.pc, none, max s.pc.toNat 0x1000⟩ ∧
      cycleWith strict r s = .next { s with run := .halted, fault := some f, reply := some (.faulted f) }) ∧
  ∀ (strict : Bool) (r : Option Byte) (s : State) (w : Word) (i : Instr),
    s.run = .running → s.fetchWord = some w → decodeWord strict w = .ok i →
    (∀ k a, faultOf i s = some (k, a) →
      ∃ f : FaultRecord, f = ⟨k, s.pc, some w, a⟩ ∧
        cycleWith strict r s = .next { s with run := .halted, fault := some f, rnd := r, reply := some (.faulted f) }) ∧
    (faultOf i s = none →
      ∃ t, cycleWith strict r s = .next t ∧ t.run = .running ∧ t.fault = s.fault ∧
        t.reply = some (.retired (frameReady i)))

/-- R76 (decision D19): a cycle's frame-ready output is true exactly when the operation it retired is CLS or DRW. -/
def Obligations.FrameReadyIsForClearAndDraw : Prop :=
  ∀ (strict : Bool) (r : Option Byte) (s t : State), cycleWith strict r s = .next t →
    (t.reply = some (.retired true) ↔
      s.run = .running ∧ ∃ w i, s.fetchWord = some w ∧ decodeWord strict w = .ok i ∧ faultOf i s = none ∧
        ((∃ u, i = .cls u) ∨ ∃ x y n, i = .drw x y n))

/-- R74: the control-flow effects of a cycle that takes no fault, from the address of its instruction: PC is 2 further, and
then a skip leaves it or adds exactly 2 more, a transfer overwrites it with its target, and an unresolved key-wait puts it
back; every other instruction leaves it. -/
def Obligations.ControlFlowEffects : Prop :=
  ∀ (strict : Bool) (r : Option Byte) (s t : State) (w : Word) (i : Instr),
    s.run = .running → s.fetchWord = some w → decodeWord strict w = .ok i → faultOf i s = none →
    cycleWith strict r s = .next t →
    match i with
    | .jp nnn | .call nnn => t.pc.toNat = nnn.toNat
    | .jpV0 nnn => t.pc.toNat = nnn.toNat + (s.reg 0).toNat
    | .ret _ => ∃ k : Fin 16, k.val + 1 = s.sp.val ∧ t.pc = s.stack.get k
    | .seImm _ _ | .sneImm _ _ | .seReg _ _ _ | .sneReg _ _ _ | .skp _ | .sknp _ => t.pc = s.pc + 2 ∨ t.pc = s.pc + 4
    | .ldKey _ => if s.key = none then t.pc = s.pc else t.pc = s.pc + 2
    | _ => t.pc = s.pc + 2

/-! ### What each part of the state is written by -/

/-- The frame of every instruction at once: one that takes no fault changes only the parts that the column "writes" of R21
gives it (with R20's flags, the PC of R74, and for CLS, RET, JP, CALL and LD I, which that table leaves out, their own
rules R111, R80, R81, R82, R103); one that takes a fault changes PC, the run state and the fault record. -/
def Obligations.OperationsWriteOnlyTheirTableRow : Prop :=
  ∀ (i : Instr) (s t : State), exec i s = .next t →
    if faultOf i s = none then Frame s t (writesOf i s) else Frame s t (These [.pc, .run, .fault])

/-- What an instruction writes depends only on the parts that the column "reads" of R21 gives it, or for CLS, RET, JP, CALL
and LD I, which that table leaves out, their own rules R111, R80, R81, R82, R103: two states that agree on those parts have the same fault, if any, and agree afterwards on every part written. -/
def Obligations.OperationsReadOnlyTheirTableRow : Prop :=
  ∀ (i : Instr) (s s' t t' : State), (∀ p, readsOf i s p → p.same s s') →
    exec i s = .next t → exec i s' = .next t' →
    faultOf i s' = faultOf i s ∧
    if faultOf i s = none then ∀ p, writesOf i s p → p.same t t' else ∀ p, These [.pc, .run, .fault] p → p.same t t'

/-- R47: Fx33 and Fx55 are the only operations that write memory, and they write only I..I+2 and I..I+x. -/
def Obligations.MemoryIsWrittenOnlyByTwoOperations : Prop :=
  ∀ (i : Instr) (s t : State) (a : Nat), exec i s = .next t → t.read a ≠ s.read a →
    (∃ x, i = .ldBcd x) ∧ s.i.toNat ≤ a ∧ a ≤ s.i.toNat + 2 ∨
    ∃ x, i = .storeRegs x ∧ s.i.toNat ≤ a ∧ a ≤ s.i.toNat + x.toNat

/-- R29: only CLS and DRW write a display cell. -/
def Obligations.DisplayIsWrittenOnlyByClearAndDraw : Prop :=
  ∀ (i : Instr) (s t : State) (cx : Fin 64) (cy : Fin 32), exec i s = .next t → t.cell cx cy ≠ s.cell cx cy →
    (∃ u, i = .cls u) ∨ ∃ x y n, i = .drw x y n

/-- R26: no instruction but CALL and RET changes the stack entries or SP. -/
def Obligations.StackIsTouchedOnlyByCallAndReturn : Prop :=
  ∀ (i : Instr) (s t : State), exec i s = .next t → (t.stack ≠ s.stack ∨ t.sp ≠ s.sp) →
    (∃ nnn, i = .call nnn) ∨ ∃ u, i = .ret u

/-- R22, R27, R28, R30 (decision D24): I is written only by Annn, Fx1E and Fx29, DT only by Fx15, ST only by Fx18, and the
key latch, the host's transactions and the host's result by no instruction. -/
def Obligations.SpecialRegistersHaveTheirOwnWriters : Prop :=
  ∀ (i : Instr) (s t : State), exec i s = .next t →
    (t.i ≠ s.i → (∃ nnn, i = .ldI nnn) ∨ (∃ x, i = .addI x) ∨ ∃ x, i = .ldFont x) ∧
    (t.dt ≠ s.dt → ∃ x, i = .ldDelay x) ∧ (t.st ≠ s.st → ∃ x, i = .ldSound x) ∧
    t.key = s.key ∧ t.pending = s.pending ∧ t.reply = s.reply

/-- R20 (decisions D13 to D15): the six operations that write VF as a flag and the value they leave in it, whatever
register they name as destination; every other operation that changes VF names it as a destination register. -/
def Obligations.FlagWritersAreExactlySix : Prop :=
  ∀ (i : Instr) (s t : State), exec i s = .next t → faultOf i s = none →
    match i with
    | .addReg x y => (t.reg vF).toNat = if (s.reg x).toNat + (s.reg y).toNat > 255 then 1 else 0
    | .subReg x y => (t.reg vF).toNat = if (s.reg x).toNat ≥ (s.reg y).toNat then 1 else 0
    | .shr x _ => (t.reg vF).toNat = (s.reg x).toNat % 2
    | .subnReg x y => (t.reg vF).toNat = if (s.reg y).toNat ≥ (s.reg x).toNat then 1 else 0
    | .shl x _ => (t.reg vF).toNat = (s.reg x).toNat / 128
    | .drw _ _ _ =>
      ((∃ cx cy, s.cell cx cy = true ∧ t.cell cx cy = false) → t.reg vF = 1) ∧
      ((¬ ∃ cx cy, s.cell cx cy = true ∧ t.cell cx cy = false) → t.reg vF = 0)
    | _ => t.reg vF ≠ s.reg vF →
      (∃ kk, i = .ldImm 0xF kk) ∨ (∃ kk, i = .addImm 0xF kk) ∨ (∃ y, i = .ldReg 0xF y) ∨ (∃ y, i = .orReg 0xF y) ∨
      (∃ y, i = .andReg 0xF y) ∨ (∃ y, i = .xorReg 0xF y) ∨ (∃ kk, i = .rnd 0xF kk) ∨ i = .ldFromDelay 0xF ∨
      i = .ldKey 0xF ∨ i = .loadRegs 0xF

/-! ### Control flow -/

/-- R81, R87 (decision D16): JP loads PC with its address; the indexed jump with its address plus V0, not reduced to 12
bits. Neither changes anything else. -/
def Obligations.JumpsLoadTheProgramCounter : Prop :=
  ∀ (nnn : Addr12) (s : State),
    (∃ t, exec (.jp nnn) s = .next t ∧ t.pc.toNat = nnn.toNat ∧ Frame s t (These [.pc])) ∧
    (∃ t, exec (.jpV0 nnn) s = .next t ∧ t.pc.toNat = nnn.toNat + (s.reg 0).toNat ∧ Frame s t (These [.pc]))

/-- R82 (decision D6): CALL stores the post-fetch PC in the entry at SP, adds one to SP and jumps; with 16 entries in use
it takes StackOverflow instead, with the depth 16 as the record's address. -/
def Obligations.CallPushesTheReturnAddress : Prop :=
  ∀ (nnn : Addr12) (s : State),
    (∀ k : Fin 16, k.val = s.sp.val → ∃ t, exec (.call nnn) s = .next t ∧ t.stack.get k = s.pc ∧
      t.sp.val = s.sp.val + 1 ∧ t.pc.toNat = nnn.toNat ∧ Frame s t (These [.entry k, .sp, .pc])) ∧
    (s.sp.val = 16 → ∃ t, exec (.call nnn) s = .next t ∧ t.run = .halted ∧ t.pc = s.pc - 2 ∧
      t.fault = some ⟨.stackOverflow, s.pc - 2, some (encode (.call nnn)), 16⟩ ∧ Frame s t (These [.pc, .run, .fault]))

/-- R80 (decision D7): RET takes one off SP and loads PC with the entry there, which keeps its value; on an empty stack it
takes StackUnderflow instead, with the depth 0 as the record's address. -/
def Obligations.ReturnPopsTheProgramCounter : Prop :=
  ∀ (u : Nibble) (s : State),
    (∀ k : Fin 16, k.val + 1 = s.sp.val → ∃ t, exec (.ret u) s = .next t ∧ t.sp.val = k.val ∧
      t.pc = s.stack.get k ∧ Frame s t (These [.sp, .pc])) ∧
    (s.sp.val = 0 → ∃ t, exec (.ret u) s = .next t ∧ t.run = .halted ∧ t.pc = s.pc - 2 ∧
      t.fault = some ⟨.stackUnderflow, s.pc - 2, some (encode (.ret u)), 0⟩ ∧ Frame s t (These [.pc, .run, .fault]))

/-- "CALL to address A followed immediately by RET at A restores the program counter to exactly the instruction following
the original CALL" (R82), and the stack depth with it. -/
def Obligations.ReturnUndoesCall : Prop :=
  ∀ (nnn : Addr12) (u : Nibble) (r : Option Byte) (s t : State), s.sp.val < 16 → exec (.call nnn) s = .next t →
    ∃ w, exec (.ret u) (t.beginCycle r) = .next w ∧ w.pc = s.pc ∧ w.sp = s.sp

/-- R83 to R86: the skips on an immediate and on a register add 2 to the post-fetch PC exactly when their condition
holds, and change nothing else. -/
def Obligations.SkipsAddTwoOnTheirCondition : Prop :=
  ∀ (x y : Reg) (kk : Byte) (u : Nibble) (s : State),
    (∃ t, exec (.seImm x kk) s = .next t ∧ Frame s t (These [.pc]) ∧
      t.pc = if s.reg x = kk then s.pc + 2 else s.pc) ∧
    (∃ t, exec (.sneImm x kk) s = .next t ∧ Frame s t (These [.pc]) ∧
      t.pc = if s.reg x = kk then s.pc else s.pc + 2) ∧
    (∃ t, exec (.seReg x y u) s = .next t ∧ Frame s t (These [.pc]) ∧
      t.pc = if s.reg x = s.reg y then s.pc + 2 else s.pc) ∧
    (∃ t, exec (.sneReg x y u) s = .next t ∧ Frame s t (These [.pc]) ∧
      t.pc = if s.reg x = s.reg y then s.pc else s.pc + 2)

/-- R118, R119: SKP skips exactly when a key is latched and its symbol is the whole byte Vx, SKNP exactly when not, so a
Vx above 0x0F never matches (R117). Neither changes anything else. -/
def Obligations.KeySkipsCompareTheWholeByte : Prop :=
  ∀ (x : Reg) (s : State),
    (∃ t, exec (.skp x) s = .next t ∧ Frame s t (These [.pc]) ∧
      ((∃ k : Nibble, s.key = some k ∧ k.toNat = (s.reg x).toNat) → t.pc = s.pc + 2) ∧
      ((¬ ∃ k : Nibble, s.key = some k ∧ k.toNat = (s.reg x).toNat) → t.pc = s.pc)) ∧
    (∃ t, exec (.sknp x) s = .next t ∧ Frame s t (These [.pc]) ∧
      ((∃ k : Nibble, s.key = some k ∧ k.toNat = (s.reg x).toNat) → t.pc = s.pc) ∧
      ((¬ ∃ k : Nibble, s.key = some k ∧ k.toNat = (s.reg x).toNat) → t.pc = s.pc + 2))

/-! ### Registers and the ALU -/

/-- R90, R92, R120: the loads of an immediate, of a register and of the delay timer leave that value in Vx and change
nothing else, not even PC or VF (unless Vx is VF). -/
def Obligations.LoadsPutTheirValueInTheRegister : Prop :=
  ∀ (x y : Reg) (kk : Byte) (s : State),
    (∃ t, exec (.ldImm x kk) s = .next t ∧ t.reg x = kk ∧ Frame s t (These [.reg x])) ∧
    (∃ t, exec (.ldReg x y) s = .next t ∧ t.reg x = s.reg y ∧ Frame s t (These [.reg x])) ∧
    (∃ t, exec (.ldFromDelay x) s = .next t ∧ t.reg x = s.dt ∧ Frame s t (These [.reg x]))

/-- R91 (decision D14): ADD Vx, kk leaves the sum mod 256 in Vx and writes no flag. -/
def Obligations.AddImmediateWrapsWithoutAFlag : Prop :=
  ∀ (x : Reg) (kk : Byte) (s : State),
    ∃ t, exec (.addImm x kk) s = .next t ∧ (t.reg x).toNat = ((s.reg x).toNat + kk.toNat) % 256 ∧
      Frame s t (These [.reg x])

/-- R93 to R95 (decision D13): OR, AND and XOR bit by bit; no flag is written. -/
def Obligations.LogicActsBitByBitWithoutAFlag : Prop :=
  ∀ (x y : Reg) (s : State),
    (∃ t, exec (.orReg x y) s = .next t ∧ Frame s t (These [.reg x]) ∧
      ∀ k, k < 8 → (t.reg x).getLsbD k = ((s.reg x).getLsbD k || (s.reg y).getLsbD k)) ∧
    (∃ t, exec (.andReg x y) s = .next t ∧ Frame s t (These [.reg x]) ∧
      ∀ k, k < 8 → (t.reg x).getLsbD k = ((s.reg x).getLsbD k && (s.reg y).getLsbD k)) ∧
    (∃ t, exec (.xorReg x y) s = .next t ∧ Frame s t (These [.reg x]) ∧
      ∀ k, k < 8 → (t.reg x).getLsbD k = ((s.reg x).getLsbD k ^^ (s.reg y).getLsbD k))

/-- R96, R89: ADD Vx, Vy leaves the sum mod 256 in Vx and then the carry in VF; with x = F the flag is what VF holds, and
the operands are the values before the operation. -/
def Obligations.AddLeavesSumThenCarry : Prop :=
  ∀ (x y : Reg) (s : State),
    ∃ t, exec (.addReg x y) s = .next t ∧ Frame s t (These [.reg x, .reg vF]) ∧
      (x ≠ vF → (t.reg x).toNat = ((s.reg x).toNat + (s.reg y).toNat) % 256) ∧
      (t.reg vF).toNat = if (s.reg x).toNat + (s.reg y).toNat > 255 then 1 else 0

/-- R97, R99, R89 (decision D15): SUB leaves Vx - Vy, and SUBN Vy - Vx, mod 256 in Vx, and then in VF 1 exactly when there
was no borrow. -/
def Obligations.SubtractLeavesDifferenceThenNoBorrow : Prop :=
  ∀ (x y : Reg) (s : State),
    (∃ t, exec (.subReg x y) s = .next t ∧ Frame s t (These [.reg x, .reg vF]) ∧
      (x ≠ vF → (t.reg x).toNat = ((s.reg x).toNat + 256 - (s.reg y).toNat) % 256) ∧
      (t.reg vF).toNat = if (s.reg x).toNat ≥ (s.reg y).toNat then 1 else 0) ∧
    (∃ t, exec (.subnReg x y) s = .next t ∧ Frame s t (These [.reg x, .reg vF]) ∧
      (x ≠ vF → (t.reg x).toNat = ((s.reg y).toNat + 256 - (s.reg x).toNat) % 256) ∧
      (t.reg vF).toNat = if (s.reg y).toNat ≥ (s.reg x).toNat then 1 else 0)

/-- R98, R100, R89 (decision D12): SHR halves Vx and SHL doubles it mod 256, whatever y is, and then VF is the bit that was
shifted out of the old Vx. -/
def Obligations.ShiftsLeaveTheBitShiftedOut : Prop :=
  ∀ (x y : Reg) (s : State),
    (∃ t, exec (.shr x y) s = .next t ∧ Frame s t (These [.reg x, .reg vF]) ∧
      (x ≠ vF → (t.reg x).toNat = (s.reg x).toNat / 2) ∧ (t.reg vF).toNat = (s.reg x).toNat % 2) ∧
    (∃ t, exec (.shl x y) s = .next t ∧ Frame s t (These [.reg x, .reg vF]) ∧
      (x ≠ vF → (t.reg x).toNat = (s.reg x).toNat * 2 % 256) ∧ (t.reg vF).toNat = (s.reg x).toNat / 128)

/-- R101 (decision D25): RND leaves the cycle's random byte under the mask in Vx: the byte the host named, if it named one,
and otherwise a byte of which nothing is said (notes/assumptions/1.md). -/
def Obligations.RandomByteIsMasked : Prop :=
  ∀ (x : Reg) (kk : Byte) (s : State),
    ∃ t r, exec (.rnd x kk) s = .next t ∧ (∀ b, s.rnd = some b → r = b) ∧
      (∀ k, k < 8 → (t.reg x).getLsbD k = (r.getLsbD k && kk.getLsbD k)) ∧ Frame s t (These [.reg x, .draws])

/-! ### The index register and memory -/

/-- R103 to R105 (decisions D10, D11): LD I loads the address, ADD I adds Vx mod 65536, LD F loads the address of the glyph of
Vx's low nibble; each changes only I. -/
def Obligations.IndexRegisterOperations : Prop :=
  ∀ (nnn : Addr12) (x : Reg) (s : State),
    (∃ t, exec (.ldI nnn) s = .next t ∧ t.i.toNat = nnn.toNat ∧ Frame s t (These [.i])) ∧
    (∃ t, exec (.addI x) s = .next t ∧ t.i.toNat = (s.i.toNat + (s.reg x).toNat) % 65536 ∧ Frame s t (These [.i])) ∧
    (∃ t, exec (.ldFont x) s = .next t ∧ t.i.toNat = 0x050 + 5 * ((s.reg x).toNat % 16) ∧ Frame s t (These [.i]))

/-- R106 (decision D8): LD B stores the hundreds, tens and ones digit of Vx at I, I + 1 and I + 2 and changes nothing else;
where I + 2 passes 0xFFF it takes MemoryBounds and stores nothing. -/
def Obligations.BcdStoresThreeDigits : Prop :=
  ∀ (x : Reg) (s : State),
    (s.i.toNat + 2 ≤ 0xFFF → ∃ t, exec (.ldBcd x) s = .next t ∧
      (t.read s.i.toNat).toNat = (s.reg x).toNat / 100 ∧
      (t.read (s.i.toNat + 1)).toNat = (s.reg x).toNat / 10 % 10 ∧
      (t.read (s.i.toNat + 2)).toNat = (s.reg x).toNat % 10 ∧ Frame s t (TheseBytes s.i.toNat 3)) ∧
    (0xFFF < s.i.toNat + 2 → ∃ t, exec (.ldBcd x) s = .next t ∧
      t.fault = some ⟨.memoryBounds, s.pc - 2, some (encode (.ldBcd x)), max s.i.toNat 0x1000⟩ ∧
      t.run = .halted ∧ t.pc = s.pc - 2 ∧ Frame s t (These [.pc, .run, .fault]))

/-- R107 (decision D8): LD [I], Vx stores V0..Vx at I .. I + x and changes nothing else, I included; where I + x passes
0xFFF it takes MemoryBounds and stores nothing. -/
def Obligations.RegistersAreStoredFromTheIndex : Prop :=
  ∀ (x : Reg) (s : State),
    (s.i.toNat + x.toNat ≤ 0xFFF → ∃ t, exec (.storeRegs x) s = .next t ∧
      (∀ r : Reg, r ≤ x → t.read (s.i.toNat + r.toNat) = s.reg r) ∧ Frame s t (TheseBytes s.i.toNat (x.toNat + 1))) ∧
    (0xFFF < s.i.toNat + x.toNat → ∃ t, exec (.storeRegs x) s = .next t ∧
      t.fault = some ⟨.memoryBounds, s.pc - 2, some (encode (.storeRegs x)), max s.i.toNat 0x1000⟩ ∧
      t.run = .halted ∧ t.pc = s.pc - 2 ∧ Frame s t (These [.pc, .run, .fault]))

/-- R108 (decision D8): LD Vx, [I] loads V0..Vx from I .. I + x and changes nothing else, I included; where I + x passes
0xFFF it takes MemoryBounds and loads nothing. -/
def Obligations.RegistersAreLoadedFromTheIndex : Prop :=
  ∀ (x : Reg) (s : State),
    (s.i.toNat + x.toNat ≤ 0xFFF → ∃ t, exec (.loadRegs x) s = .next t ∧
      (∀ r : Reg, r ≤ x → t.reg r = s.read (s.i.toNat + r.toNat)) ∧
      Frame s t (fun p => ∃ r : Reg, r ≤ x ∧ p = .reg r)) ∧
    (0xFFF < s.i.toNat + x.toNat → ∃ t, exec (.loadRegs x) s = .next t ∧
      t.fault = some ⟨.memoryBounds, s.pc - 2, some (encode (.loadRegs x)), max s.i.toNat 0x1000⟩ ∧
      t.run = .halted ∧ t.pc = s.pc - 2 ∧ Frame s t (These [.pc, .run, .fault]))

/-- "dumping V0..V5 to memory at I then loading V0..V5 from the same address restores the original register values
bit-for-bit" (R108), for every x and whatever the registers hold in between. -/
def Obligations.LoadUndoesStore : Prop :=
  ∀ (x : Reg) (s t u w : State), faultOf (.storeRegs x) s = none → exec (.storeRegs x) s = .next t →
    u = { t with v := u.v, pc := u.pc } → exec (.loadRegs x) u = .next w → ∀ r : Reg, r ≤ x → w.reg r = s.reg r

/-- R55 (decision D28): a fetch sees the bytes an earlier store wrote. After Fx55, an instruction word that lies within the
stored bytes is the two registers stored there, high byte first. -/
def Obligations.FetchSeesEarlierStores : Prop :=
  ∀ (x r r' : Reg) (s t u : State), faultOf (.storeRegs x) s = none → exec (.storeRegs x) s = .next t →
    r'.toNat = r.toNat + 1 → r' ≤ x → u.mem = t.mem → u.pc.toNat = s.i.toNat + r.toNat →
    ∃ w, u.fetchWord = some w ∧ w.toNat = (s.reg r).toNat * 256 + (s.reg r').toNat

/-! ### The display -/

/-- R111: CLS leaves every cell unset and changes nothing else, VF included. -/
def Obligations.ClearUnsetsEveryCell : Prop :=
  ∀ (u : Nibble) (s : State), ∃ t, exec (.cls u) s = .next t ∧ (∀ cx cy, t.cell cx cy = false) ∧
    Frame s t (fun p => ∃ cx cy, p = .cell cx cy)

/-- R112, R113, R114 (decisions D8, D21, D36): DRW flips exactly the cells its sprite sets, as a picture placed at (Vx mod
64, Vy mod 32), clipped and not wrapped, and then sets VF to 1 if one of them was set before and to 0 if none was; where
the n bytes from I pass 0xFFF it takes MemoryBounds and draws nothing. -/
def Obligations.DrawFlipsTheSpritePicture : Prop :=
  ∀ (x y : Reg) (n : Nibble) (s : State),
    (n = 0 ∨ s.i.toNat + n.toNat - 1 ≤ 0xFFF → ∃ t, exec (.drw x y n) s = .next t ∧
      (∀ cx cy, s.spriteSets x y n cx cy → t.cell cx cy = !s.cell cx cy) ∧
      (∀ cx cy, ¬ s.spriteSets x y n cx cy → t.cell cx cy = s.cell cx cy) ∧
      ((∃ cx cy, s.spriteSets x y n cx cy ∧ s.cell cx cy = true) → t.reg vF = 1) ∧
      ((¬ ∃ cx cy, s.spriteSets x y n cx cy ∧ s.cell cx cy = true) → t.reg vF = 0) ∧
      Frame s t (fun p => p = .reg vF ∨ ∃ cx cy, p = .cell cx cy)) ∧
    (n ≠ 0 → 0xFFF < s.i.toNat + n.toNat - 1 → ∃ t, exec (.drw x y n) s = .next t ∧
      t.fault = some ⟨.memoryBounds, s.pc - 2, some (encode (.drw x y n)), max s.i.toNat 0x1000⟩ ∧
      t.run = .halted ∧ t.pc = s.pc - 2 ∧ Frame s t (These [.pc, .run, .fault]))

/-- Drawing the identical sprite at the identical coordinates twice in a row restores the pre-draw display exactly, and the
second draw reports VF = 1 exactly when some visible cell of the sprite was unset before the first: that cell is set by
the first draw and cleared by the second. The sentence R114 draws from R112 asks only that the sprite sets a visible
cell; where every such cell was already set the second draw clears none, so the model's second VF is 0 there
(notes/assumptions/6.md). The coordinate registers are not VF, which the first draw writes. -/
def Obligations.DrawingTwiceRestoresTheDisplay : Prop :=
  ∀ (x y : Reg) (n : Nibble) (r : Option Byte) (s t : State), x ≠ vF → y ≠ vF → faultOf (.drw x y n) s = none →
    exec (.drw x y n) s = .next t →
    ∃ w, exec (.drw x y n) (t.beginCycle r) = .next w ∧ w.display = s.display ∧
      ((∃ cx cy, s.spriteSets x y n cx cy ∧ s.cell cx cy = false) → w.reg vF = 1) ∧
      ((¬ ∃ cx cy, s.spriteSets x y n cx cy ∧ s.cell cx cy = false) → w.reg vF = 0)

/-! ### Keys and timers -/

/-- R121 (decision D24): with no key latched the key-wait puts PC back to its own address and changes nothing else; with one
latched it leaves the key's value in Vx and changes nothing else, the latch included. -/
def Obligations.KeyWaitRewindsOrLoads : Prop :=
  ∀ (x : Reg) (s : State),
    (s.key = none → ∃ t, exec (.ldKey x) s = .next t ∧ t.pc = s.pc - 2 ∧ Frame s t (These [.pc])) ∧
    (∀ k : Nibble, s.key = some k → ∃ t, exec (.ldKey x) s = .next t ∧ (t.reg x).toNat = k.toNat ∧
      Frame s t (These [.reg x]))

/-- R122, R123: LD DT, Vx and LD ST, Vx leave Vx in the timer they name and change nothing else. -/
def Obligations.TimersAreSetFromARegister : Prop :=
  ∀ (x : Reg) (s : State),
    (∃ t, exec (.ldDelay x) s = .next t ∧ t.dt = s.reg x ∧ Frame s t (These [.dt])) ∧
    (∃ t, exec (.ldSound x) s = .next t ∧ t.st = s.reg x ∧ Frame s t (These [.st]))

/-! ### The host -/

/-- R136 (decision D17): TimerTick takes one off each timer that is not 0 and leaves one that is, whether the core runs or is
halted; nothing else of the core changes. -/
def Obligations.TimerTickStopsAtZero : Prop :=
  ∀ (s : State) (rest : List Transaction), s.pending = .timerTick :: rest →
    ∃ t, step s = .next t ∧ t.pending = rest ∧ t.dt.toNat = s.dt.toNat - 1 ∧ t.st.toNat = s.st.toNat - 1 ∧
      Frame s t (These [.dt, .st, .pending, .reply])

/-- R135: SetKey overwrites the latch, whether the core runs or is halted; nothing else of the core changes. -/
def Obligations.SetKeyOverwritesTheLatch : Prop :=
  ∀ (s : State) (k : Option Nibble) (rest : List Transaction), s.pending = .setKey k :: rest →
    ∃ t, step s = .next t ∧ t.pending = rest ∧ t.key = k ∧ Frame s t (These [.key, .pending, .reply])

/-- R137, R138 and the read transactions of R133: each gives the host what it names and changes nothing of the core; the
sound output is on exactly when ST is not 0. -/
def Obligations.ReadsReportTheState : Prop :=
  ∀ (s : State) (q : Transaction) (rest : List Transaction), s.pending = q :: rest →
    q ∈ [Transaction.readDisplay, .readTimers, .readSound, .readFault] →
    ∃ t, step s = .next t ∧ t.pending = rest ∧ Frame s t (These [.pending, .reply]) ∧
      (q = .readDisplay → t.reply = some (.display s.display)) ∧
      (q = .readTimers → t.reply = some (.timers s.dt s.st)) ∧
      (q = .readSound → ∃ on, t.reply = some (.sound on) ∧ (on = true ↔ s.st ≠ 0)) ∧
      (q = .readFault → t.reply = some (.faultStatus s.run s.fault))

/-- R39, R144, R6 (decisions D2, D3, D9, D20): under any FONT, MEM_INIT and STRICT_DECODE, PowerOn of an image of at most 3584
bytes builds the state of R39, from a halted core too: the image from 0x200, FONT at 0x050..0x09F, MEM_INIT elsewhere, in
canonical form, and every register, timer, cell and latch at its power-on value. `step` is this at the defaults: the
standard font, 0x00, and false. -/
def Obligations.PowerOnBuildsTheState : Prop :=
  (∀ (p : Parameters) (s : State) (rom : List Byte) (rest : List Transaction), s.pending = .powerOn rom :: rest →
    rom.length ≤ 3584 →
    ∃ t, stepWith p s = .next t ∧ t.pending = rest ∧ t.reply = some .ok ∧ t.pc = 0x200 ∧ t.i = 0 ∧ t.sp = 0 ∧ t.dt = 0 ∧
      t.st = 0 ∧ t.key = none ∧ t.run = .running ∧ t.fault = none ∧ (∀ r, t.reg r = 0) ∧
      (∀ k, t.stack.get k = 0) ∧ (∀ cx cy, t.cell cx cy = false) ∧ t.mem.wf = true ∧
      (∀ (k : Nat) (h : k < rom.length), t.read (0x200 + k) = rom[k]) ∧
      (∀ (k : Nat) (h : k < 80), t.read (0x050 + k) = p.font[k]) ∧
      (∀ a, (a < 0x050 ∨ 0x0A0 ≤ a ∧ a < 0x200 ∨ 0x200 + rom.length ≤ a ∧ a ≤ 0xFFF) → t.read a = p.memInit a)) ∧
  (∀ s : State, step s = stepWith parameters s) ∧ parameters.strictDecode = false ∧
  parameters.font.toList = fontBytes ∧ ∀ a, parameters.memInit a = 0x00

/-- R145 (decision D23), under any parameters: PowerOn of an image of 3585 bytes or more returns RomTooLarge and changes nothing of the core; one of
at most 3584 bytes, an empty one too, is accepted. -/
def Obligations.RomSizeIsChecked : Prop :=
  ∀ (p : Parameters) (s : State) (rom : List Byte) (rest : List Transaction), s.pending = .powerOn rom :: rest →
    ∃ t, stepWith p s = .next t ∧ t.pending = rest ∧
      (3584 < rom.length → t.reply = some .romTooLarge ∧ Frame s t (These [.pending, .reply])) ∧
      (rom.length ≤ 3584 → t.reply = some .ok)

/-- What reset leaves, by R39 with an empty image, which is the model's choice (notes/assumptions/10.md; decisions D2, D3,
D9, D20): PC = 0x200, the font in place and the
standard font's first and last byte at its ends, every register, entry and cell 0, no key, Running, no fault. -/
def Obligations.ResetIsThePowerOnState : Prop :=
  State.reset.pc = 0x200 ∧ State.reset.i = 0 ∧ State.reset.sp = 0 ∧ State.reset.dt = 0 ∧ State.reset.st = 0 ∧
  State.reset.key = none ∧ State.reset.run = .running ∧ State.reset.fault = none ∧ (∀ r, State.reset.reg r = 0) ∧
  (∀ k, State.reset.stack.get k = 0) ∧ (∀ cx cy, State.reset.cell cx cy = false) ∧
  State.reset.read 0x050 = 0xF0 ∧ State.reset.read 0x09F = 0x80 ∧
  ∀ a, (a < 0x050 ∨ 0x0A0 ≤ a) → State.reset.read a = 0x00

/-! ### Every state -/

/-- The invariant of the machine holds of the state after reset. -/
def Obligations.ResetMeetsTheInvariant : Prop := State.reset.Inv

/-- Every step keeps the invariant, from every state that has it: memory canonical, PC at most 0x10FE, stack entries at
most 0x1000, Halted exactly with a fault record, and that record fitting the state (R24, R33, R34, R80, R126). -/
def Obligations.EveryStepKeepsTheInvariant : Prop :=
  ∀ s t : State, s.Inv → step s = .next t → t.Inv

/-- A stack entry that is not in use is never seen (R39, R80): two states that differ only in such entries step alike, and
their next states differ only in such entries. -/
def Obligations.StaleStackEntriesAreUnobservable : Prop :=
  ∀ s s' t : State, SameButStaleEntries s s' → step s = .next t →
    ∃ t', step s' = .next t' ∧ SameButStaleEntries t t'
end

