-- ==== Sys2Proof/Laws/Decode.lean ====
section
/-! SUPPORT. The fields of a word put together from fields, and the word put together again from its fields. Each field
and each format is first said on numbers; the rest is arithmetic. -/

namespace Sys2Proof

/-! ### On numbers -/

/-- Concatenation on numbers: the high part times 2^m plus the low part. -/
theorem append_toNat {n m : Nat} (hi : BitVec n) (lo : BitVec m) : (hi ++ lo).toNat = hi.toNat * 2 ^ m + lo.toNat := by
  rw [BitVec.toNat_append, Nat.shiftLeft_eq, Nat.mul_comm, ← Nat.two_pow_add_eq_or_of_lt lo.isLt]

theorem formatA_toNat (g : Nibble) (a : Addr12) : (formatA g a).toNat = g.toNat * 4096 + a.toNat :=
  append_toNat g a

theorem formatXK_toNat (g x : Nibble) (k : Byte) : (formatXK g x k).toNat = g.toNat * 4096 + x.toNat * 256 + k.toNat := by
  have h : (formatXK g x k).toNat = (g ++ x).toNat * 2 ^ 8 + k.toNat := append_toNat (g ++ x) k
  rw [h, append_toNat]
  omega

theorem formatXYN_toNat (g x y n : Nibble) :
    (formatXYN g x y n).toNat = g.toNat * 4096 + x.toNat * 256 + y.toNat * 16 + n.toNat := by
  have h : (formatXYN g x y n).toNat = (g ++ x ++ y).toNat * 2 ^ 4 + n.toNat := append_toNat (g ++ x ++ y) n
  rw [h, append_toNat, append_toNat]
  omega

/-- Composing is on numbers what R44 says: high byte times 256 plus low byte. -/
theorem composeWord_toNat (hi lo : Byte) : (composeWord hi lo).toNat = hi.toNat * 256 + lo.toNat :=
  append_toNat hi lo

theorem groupOf_toNat (w : Word) : (groupOf w).toNat = w.toNat / 4096 % 16 := by
  simp [groupOf, Nat.shiftRight_eq_div_pow]

theorem fieldX_toNat (w : Word) : (fieldX w).toNat = w.toNat / 256 % 16 := by
  simp [fieldX, Nat.shiftRight_eq_div_pow]

theorem fieldY_toNat (w : Word) : (fieldY w).toNat = w.toNat / 16 % 16 := by
  simp [fieldY, Nat.shiftRight_eq_div_pow]

theorem fieldN_toNat (w : Word) : (fieldN w).toNat = w.toNat % 16 := by
  simp [fieldN]

theorem fieldKK_toNat (w : Word) : (fieldKK w).toNat = w.toNat % 256 := by
  simp [fieldKK]

theorem fieldNNN_toNat (w : Word) : (fieldNNN w).toNat = w.toNat % 4096 := by
  simp [fieldNNN]

/-! ### The fields of each format -/

@[simp] theorem groupOf_formatA (g : Nibble) (a : Addr12) : groupOf (formatA g a) = g := by
  have := g.isLt; have := a.isLt
  apply BitVec.eq_of_toNat_eq; rw [groupOf_toNat, formatA_toNat]; omega

@[simp] theorem fieldNNN_formatA (g : Nibble) (a : Addr12) : fieldNNN (formatA g a) = a := by
  have := g.isLt; have := a.isLt
  apply BitVec.eq_of_toNat_eq; rw [fieldNNN_toNat, formatA_toNat]; omega

@[simp] theorem fieldKK_formatA (g : Nibble) (a : Addr12) : fieldKK (formatA g a) = a.setWidth 8 := by
  have := g.isLt; have := a.isLt
  apply BitVec.eq_of_toNat_eq; rw [fieldKK_toNat, formatA_toNat, BitVec.toNat_setWidth]; omega

@[simp] theorem groupOf_formatXK (g x : Nibble) (k : Byte) : groupOf (formatXK g x k) = g := by
  have := g.isLt; have := x.isLt; have := k.isLt
  apply BitVec.eq_of_toNat_eq; rw [groupOf_toNat, formatXK_toNat]; omega

@[simp] theorem fieldX_formatXK (g x : Nibble) (k : Byte) : fieldX (formatXK g x k) = x := by
  have := g.isLt; have := x.isLt; have := k.isLt
  apply BitVec.eq_of_toNat_eq; rw [fieldX_toNat, formatXK_toNat]; omega

@[simp] theorem fieldKK_formatXK (g x : Nibble) (k : Byte) : fieldKK (formatXK g x k) = k := by
  have := g.isLt; have := x.isLt; have := k.isLt
  apply BitVec.eq_of_toNat_eq; rw [fieldKK_toNat, formatXK_toNat]; omega

@[simp] theorem groupOf_formatXYN (g x y n : Nibble) : groupOf (formatXYN g x y n) = g := by
  have := g.isLt; have := x.isLt; have := y.isLt; have := n.isLt
  apply BitVec.eq_of_toNat_eq; rw [groupOf_toNat, formatXYN_toNat]; omega

@[simp] theorem fieldX_formatXYN (g x y n : Nibble) : fieldX (formatXYN g x y n) = x := by
  have := g.isLt; have := x.isLt; have := y.isLt; have := n.isLt
  apply BitVec.eq_of_toNat_eq; rw [fieldX_toNat, formatXYN_toNat]; omega

@[simp] theorem fieldY_formatXYN (g x y n : Nibble) : fieldY (formatXYN g x y n) = y := by
  have := g.isLt; have := x.isLt; have := y.isLt; have := n.isLt
  apply BitVec.eq_of_toNat_eq; rw [fieldY_toNat, formatXYN_toNat]; omega

@[simp] theorem fieldN_formatXYN (g x y n : Nibble) : fieldN (formatXYN g x y n) = n := by
  have := g.isLt; have := x.isLt; have := y.isLt; have := n.isLt
  apply BitVec.eq_of_toNat_eq; rw [fieldN_toNat, formatXYN_toNat]; omega

/-! ### A word from its own fields -/

theorem formatA_fields (w : Word) : formatA (groupOf w) (fieldNNN w) = w := by
  have := w.isLt
  apply BitVec.eq_of_toNat_eq; rw [formatA_toNat, groupOf_toNat, fieldNNN_toNat]; omega

theorem formatXK_fields (w : Word) : formatXK (groupOf w) (fieldX w) (fieldKK w) = w := by
  have := w.isLt
  apply BitVec.eq_of_toNat_eq; rw [formatXK_toNat, groupOf_toNat, fieldX_toNat, fieldKK_toNat]; omega

theorem formatXYN_fields (w : Word) : formatXYN (groupOf w) (fieldX w) (fieldY w) (fieldN w) = w := by
  have := w.isLt
  apply BitVec.eq_of_toNat_eq
  rw [formatXYN_toNat, groupOf_toNat, fieldX_toNat, fieldY_toNat, fieldN_toNat]; omega

/-! ### Masks (R69) -/

/-- Masking a word masks its fields. -/
theorem formatXYN_and (g x y n g' x' y' n' : Nibble) :
    formatXYN g x y n &&& formatXYN g' x' y' n' = formatXYN (g &&& g') (x &&& x') (y &&& y') (n &&& n') := by
  have h : (g ++ x ++ y ++ n) &&& (g' ++ x' ++ y' ++ n') = (g &&& g') ++ (x &&& x') ++ (y &&& y') ++ (n &&& n') := by
    rw [BitVec.and_append, BitVec.and_append, BitVec.and_append]
  exact h

/-- A word determines its fields. -/
theorem formatXYN_inj {g x y n g' x' y' n' : Nibble} (h : formatXYN g x y n = formatXYN g' x' y' n') :
    g = g' ∧ x = x' ∧ y = y' ∧ n = n' := by
  refine ⟨?_, ?_, ?_, ?_⟩
  · simpa using congrArg groupOf h
  · simpa using congrArg fieldX h
  · simpa using congrArg fieldY h
  · simpa using congrArg fieldN h

/-! ### Bytes and words -/

/-- The two bytes of a word as memory holds it, composed, are the word (R44). -/
theorem composeWord_of_bytes (w : Word) : composeWord (w.extractLsb' 8 8) (w.extractLsb' 0 8) = w := by
  have := w.isLt
  apply BitVec.eq_of_toNat_eq
  rw [composeWord_toNat, BitVec.extractLsb'_toNat, BitVec.extractLsb'_toNat, Nat.shiftRight_eq_div_pow]
  simp only [Nat.shiftRight_zero]
  omega

/-! ### The literal reading -/

/-- All that a word with an unexamined field can decode to. -/
theorem literalReading_cases (strict : Bool) (u : Nibble) (w : Word) (i : Instr) :
    (strict = true ∧ u ≠ 0 ∧ literalReading strict u w i = .error (.refusedWord w)) ∨
    ((strict = false ∨ u = 0) ∧ literalReading strict u w i = .ok i) := by
  cases strict <;> by_cases h : u = 0#4 <;> simp [literalReading, h]

theorem literalReading_false (u : Nibble) (w : Word) (i : Instr) : literalReading false u w i = .ok i := by
  simp [literalReading]

/-! ### The decoder, group by group (R61) -/

variable (strict : Bool) (w : Word)

/-- A group is one of the sixteen. -/
theorem group_cases (g : Nibble) :
    g = 0x0 ∨ g = 0x1 ∨ g = 0x2 ∨ g = 0x3 ∨ g = 0x4 ∨ g = 0x5 ∨ g = 0x6 ∨ g = 0x7 ∨ g = 0x8 ∨ g = 0x9 ∨ g = 0xA ∨
    g = 0xB ∨ g = 0xC ∨ g = 0xD ∨ g = 0xE ∨ g = 0xF := by
  revert g; decide

theorem decodeWord_group0 (h : groupOf w = 0x0) :
    decodeWord strict w = decodeGroup0 strict w := by
  simp [decodeWord, h]

theorem decodeWord_group1 (h : groupOf w = 0x1) :
    decodeWord strict w = .ok (.jp (fieldNNN w)) := by
  simp [decodeWord, h]

theorem decodeWord_group2 (h : groupOf w = 0x2) :
    decodeWord strict w = .ok (.call (fieldNNN w)) := by
  simp [decodeWord, h]

theorem decodeWord_group3 (h : groupOf w = 0x3) :
    decodeWord strict w = .ok (.seImm (fieldX w) (fieldKK w)) := by
  simp [decodeWord, h]

theorem decodeWord_group4 (h : groupOf w = 0x4) :
    decodeWord strict w = .ok (.sneImm (fieldX w) (fieldKK w)) := by
  simp [decodeWord, h]

theorem decodeWord_group5 (h : groupOf w = 0x5) :
    decodeWord strict w = literalReading strict (fieldN w) w (.seReg (fieldX w) (fieldY w) (fieldN w)) := by
  simp [decodeWord, h]

theorem decodeWord_group6 (h : groupOf w = 0x6) :
    decodeWord strict w = .ok (.ldImm (fieldX w) (fieldKK w)) := by
  simp [decodeWord, h]

theorem decodeWord_group7 (h : groupOf w = 0x7) :
    decodeWord strict w = .ok (.addImm (fieldX w) (fieldKK w)) := by
  simp [decodeWord, h]

theorem decodeWord_group8 (h : groupOf w = 0x8) :
    decodeWord strict w = .ok (decodeGroup8 w) := by
  simp [decodeWord, h]

theorem decodeWord_group9 (h : groupOf w = 0x9) :
    decodeWord strict w = literalReading strict (fieldN w) w (.sneReg (fieldX w) (fieldY w) (fieldN w)) := by
  simp [decodeWord, h]

theorem decodeWord_groupA (h : groupOf w = 0xA) :
    decodeWord strict w = .ok (.ldI (fieldNNN w)) := by
  simp [decodeWord, h]

theorem decodeWord_groupB (h : groupOf w = 0xB) :
    decodeWord strict w = .ok (.jpV0 (fieldNNN w)) := by
  simp [decodeWord, h]

theorem decodeWord_groupC (h : groupOf w = 0xC) :
    decodeWord strict w = .ok (.rnd (fieldX w) (fieldKK w)) := by
  simp [decodeWord, h]

theorem decodeWord_groupD (h : groupOf w = 0xD) :
    decodeWord strict w = .ok (.drw (fieldX w) (fieldY w) (fieldN w)) := by
  simp [decodeWord, h]

theorem decodeWord_groupE (h : groupOf w = 0xE) :
    decodeWord strict w = .ok (decodeGroupE w) := by
  simp [decodeWord, h]

theorem decodeWord_groupF (h : groupOf w = 0xF) :
    decodeWord strict w = .ok (decodeGroupF w) := by
  simp [decodeWord, h]

end Sys2Proof
end

