-- ==== Sys2Proof/Laws/State.lean ====
section
/-! SUPPORT. What each named update of the state leaves in each field (all by rfl), and in each register, byte and cell.
A proof over updates simplifies with these and unfolds no record. -/

namespace Sys2Proof.Machine

variable (s : State)

/-! ### setReg -/

@[simp] theorem State.setReg_mem (x : Reg) (b : Byte) : (s.setReg x b).mem = s.mem := rfl
@[simp] theorem State.setReg_v (x : Reg) (b : Byte) : (s.setReg x b).v = s.v.set x.toNat b x.isLt := rfl
@[simp] theorem State.setReg_i (x : Reg) (b : Byte) : (s.setReg x b).i = s.i := rfl
@[simp] theorem State.setReg_pc (x : Reg) (b : Byte) : (s.setReg x b).pc = s.pc := rfl
@[simp] theorem State.setReg_stack (x : Reg) (b : Byte) : (s.setReg x b).stack = s.stack := rfl
@[simp] theorem State.setReg_sp (x : Reg) (b : Byte) : (s.setReg x b).sp = s.sp := rfl
@[simp] theorem State.setReg_dt (x : Reg) (b : Byte) : (s.setReg x b).dt = s.dt := rfl
@[simp] theorem State.setReg_st (x : Reg) (b : Byte) : (s.setReg x b).st = s.st := rfl
@[simp] theorem State.setReg_display (x : Reg) (b : Byte) : (s.setReg x b).display = s.display := rfl
@[simp] theorem State.setReg_key (x : Reg) (b : Byte) : (s.setReg x b).key = s.key := rfl
@[simp] theorem State.setReg_run (x : Reg) (b : Byte) : (s.setReg x b).run = s.run := rfl
@[simp] theorem State.setReg_fault (x : Reg) (b : Byte) : (s.setReg x b).fault = s.fault := rfl
@[simp] theorem State.setReg_rnd (x : Reg) (b : Byte) : (s.setReg x b).rnd = s.rnd := rfl
@[simp] theorem State.setReg_draws (x : Reg) (b : Byte) : (s.setReg x b).draws = s.draws := rfl
@[simp] theorem State.setReg_pending (x : Reg) (b : Byte) : (s.setReg x b).pending = s.pending := rfl
@[simp] theorem State.setReg_reply (x : Reg) (b : Byte) : (s.setReg x b).reply = s.reply := rfl

/-! ### setI -/

@[simp] theorem State.setI_mem (a : Word) : (s.setI a).mem = s.mem := rfl
@[simp] theorem State.setI_v (a : Word) : (s.setI a).v = s.v := rfl
@[simp] theorem State.setI_i (a : Word) : (s.setI a).i = a := rfl
@[simp] theorem State.setI_pc (a : Word) : (s.setI a).pc = s.pc := rfl
@[simp] theorem State.setI_stack (a : Word) : (s.setI a).stack = s.stack := rfl
@[simp] theorem State.setI_sp (a : Word) : (s.setI a).sp = s.sp := rfl
@[simp] theorem State.setI_dt (a : Word) : (s.setI a).dt = s.dt := rfl
@[simp] theorem State.setI_st (a : Word) : (s.setI a).st = s.st := rfl
@[simp] theorem State.setI_display (a : Word) : (s.setI a).display = s.display := rfl
@[simp] theorem State.setI_key (a : Word) : (s.setI a).key = s.key := rfl
@[simp] theorem State.setI_run (a : Word) : (s.setI a).run = s.run := rfl
@[simp] theorem State.setI_fault (a : Word) : (s.setI a).fault = s.fault := rfl
@[simp] theorem State.setI_rnd (a : Word) : (s.setI a).rnd = s.rnd := rfl
@[simp] theorem State.setI_draws (a : Word) : (s.setI a).draws = s.draws := rfl
@[simp] theorem State.setI_pending (a : Word) : (s.setI a).pending = s.pending := rfl
@[simp] theorem State.setI_reply (a : Word) : (s.setI a).reply = s.reply := rfl

/-! ### setPc -/

@[simp] theorem State.setPc_mem (a : Word) : (s.setPc a).mem = s.mem := rfl
@[simp] theorem State.setPc_v (a : Word) : (s.setPc a).v = s.v := rfl
@[simp] theorem State.setPc_i (a : Word) : (s.setPc a).i = s.i := rfl
@[simp] theorem State.setPc_pc (a : Word) : (s.setPc a).pc = a := rfl
@[simp] theorem State.setPc_stack (a : Word) : (s.setPc a).stack = s.stack := rfl
@[simp] theorem State.setPc_sp (a : Word) : (s.setPc a).sp = s.sp := rfl
@[simp] theorem State.setPc_dt (a : Word) : (s.setPc a).dt = s.dt := rfl
@[simp] theorem State.setPc_st (a : Word) : (s.setPc a).st = s.st := rfl
@[simp] theorem State.setPc_display (a : Word) : (s.setPc a).display = s.display := rfl
@[simp] theorem State.setPc_key (a : Word) : (s.setPc a).key = s.key := rfl
@[simp] theorem State.setPc_run (a : Word) : (s.setPc a).run = s.run := rfl
@[simp] theorem State.setPc_fault (a : Word) : (s.setPc a).fault = s.fault := rfl
@[simp] theorem State.setPc_rnd (a : Word) : (s.setPc a).rnd = s.rnd := rfl
@[simp] theorem State.setPc_draws (a : Word) : (s.setPc a).draws = s.draws := rfl
@[simp] theorem State.setPc_pending (a : Word) : (s.setPc a).pending = s.pending := rfl
@[simp] theorem State.setPc_reply (a : Word) : (s.setPc a).reply = s.reply := rfl

/-! ### countDraw -/

@[simp] theorem State.countDraw_mem : s.countDraw.mem = s.mem := rfl
@[simp] theorem State.countDraw_v : s.countDraw.v = s.v := rfl
@[simp] theorem State.countDraw_i : s.countDraw.i = s.i := rfl
@[simp] theorem State.countDraw_pc : s.countDraw.pc = s.pc := rfl
@[simp] theorem State.countDraw_stack : s.countDraw.stack = s.stack := rfl
@[simp] theorem State.countDraw_sp : s.countDraw.sp = s.sp := rfl
@[simp] theorem State.countDraw_dt : s.countDraw.dt = s.dt := rfl
@[simp] theorem State.countDraw_st : s.countDraw.st = s.st := rfl
@[simp] theorem State.countDraw_display : s.countDraw.display = s.display := rfl
@[simp] theorem State.countDraw_key : s.countDraw.key = s.key := rfl
@[simp] theorem State.countDraw_run : s.countDraw.run = s.run := rfl
@[simp] theorem State.countDraw_fault : s.countDraw.fault = s.fault := rfl
@[simp] theorem State.countDraw_rnd : s.countDraw.rnd = s.rnd := rfl
@[simp] theorem State.countDraw_draws : s.countDraw.draws = s.draws + 1 := rfl
@[simp] theorem State.countDraw_pending : s.countDraw.pending = s.pending := rfl
@[simp] theorem State.countDraw_reply : s.countDraw.reply = s.reply := rfl

/-! ### beginCycle -/

@[simp] theorem State.beginCycle_mem (r : Option Byte) : (s.beginCycle r).mem = s.mem := rfl
@[simp] theorem State.beginCycle_v (r : Option Byte) : (s.beginCycle r).v = s.v := rfl
@[simp] theorem State.beginCycle_i (r : Option Byte) : (s.beginCycle r).i = s.i := rfl
@[simp] theorem State.beginCycle_pc (r : Option Byte) : (s.beginCycle r).pc = s.pc + 2 := rfl
@[simp] theorem State.beginCycle_stack (r : Option Byte) : (s.beginCycle r).stack = s.stack := rfl
@[simp] theorem State.beginCycle_sp (r : Option Byte) : (s.beginCycle r).sp = s.sp := rfl
@[simp] theorem State.beginCycle_dt (r : Option Byte) : (s.beginCycle r).dt = s.dt := rfl
@[simp] theorem State.beginCycle_st (r : Option Byte) : (s.beginCycle r).st = s.st := rfl
@[simp] theorem State.beginCycle_display (r : Option Byte) : (s.beginCycle r).display = s.display := rfl
@[simp] theorem State.beginCycle_key (r : Option Byte) : (s.beginCycle r).key = s.key := rfl
@[simp] theorem State.beginCycle_run (r : Option Byte) : (s.beginCycle r).run = s.run := rfl
@[simp] theorem State.beginCycle_fault (r : Option Byte) : (s.beginCycle r).fault = s.fault := rfl
@[simp] theorem State.beginCycle_rnd (r : Option Byte) : (s.beginCycle r).rnd = r := rfl
@[simp] theorem State.beginCycle_draws (r : Option Byte) : (s.beginCycle r).draws = s.draws := rfl
@[simp] theorem State.beginCycle_pending (r : Option Byte) : (s.beginCycle r).pending = s.pending := rfl
@[simp] theorem State.beginCycle_reply (r : Option Byte) : (s.beginCycle r).reply = s.reply := rfl

/-! ### takeFault -/

@[simp] theorem State.takeFault_mem (a : Word) (k : FaultKind) (w : Option Word) (n : Nat) : (s.takeFault a k w n).mem = s.mem :=
  rfl
@[simp] theorem State.takeFault_v (a : Word) (k : FaultKind) (w : Option Word) (n : Nat) : (s.takeFault a k w n).v = s.v :=
  rfl
@[simp] theorem State.takeFault_i (a : Word) (k : FaultKind) (w : Option Word) (n : Nat) : (s.takeFault a k w n).i = s.i :=
  rfl
@[simp] theorem State.takeFault_pc (a : Word) (k : FaultKind) (w : Option Word) (n : Nat) : (s.takeFault a k w n).pc = a :=
  rfl
@[simp] theorem State.takeFault_stack (a : Word) (k : FaultKind) (w : Option Word) (n : Nat) : (s.takeFault a k w n).stack = s.stack :=
  rfl
@[simp] theorem State.takeFault_sp (a : Word) (k : FaultKind) (w : Option Word) (n : Nat) : (s.takeFault a k w n).sp = s.sp :=
  rfl
@[simp] theorem State.takeFault_dt (a : Word) (k : FaultKind) (w : Option Word) (n : Nat) : (s.takeFault a k w n).dt = s.dt :=
  rfl
@[simp] theorem State.takeFault_st (a : Word) (k : FaultKind) (w : Option Word) (n : Nat) : (s.takeFault a k w n).st = s.st :=
  rfl
@[simp] theorem State.takeFault_display (a : Word) (k : FaultKind) (w : Option Word) (n : Nat) : (s.takeFault a k w n).display = s.display :=
  rfl
@[simp] theorem State.takeFault_key (a : Word) (k : FaultKind) (w : Option Word) (n : Nat) : (s.takeFault a k w n).key = s.key :=
  rfl
@[simp] theorem State.takeFault_run (a : Word) (k : FaultKind) (w : Option Word) (n : Nat) : (s.takeFault a k w n).run = .halted :=
  rfl
@[simp] theorem State.takeFault_fault (a : Word) (k : FaultKind) (w : Option Word) (n : Nat) : (s.takeFault a k w n).fault = some ⟨k, a, w, n⟩ :=
  rfl
@[simp] theorem State.takeFault_rnd (a : Word) (k : FaultKind) (w : Option Word) (n : Nat) : (s.takeFault a k w n).rnd = s.rnd :=
  rfl
@[simp] theorem State.takeFault_draws (a : Word) (k : FaultKind) (w : Option Word) (n : Nat) : (s.takeFault a k w n).draws = s.draws :=
  rfl
@[simp] theorem State.takeFault_pending (a : Word) (k : FaultKind) (w : Option Word) (n : Nat) : (s.takeFault a k w n).pending = s.pending :=
  rfl
@[simp] theorem State.takeFault_reply (a : Word) (k : FaultKind) (w : Option Word) (n : Nat) : (s.takeFault a k w n).reply = s.reply :=
  rfl

/-! ### answer -/

@[simp] theorem State.answer_mem (r : Reply) : (s.answer r).mem = s.mem := rfl
@[simp] theorem State.answer_v (r : Reply) : (s.answer r).v = s.v := rfl
@[simp] theorem State.answer_i (r : Reply) : (s.answer r).i = s.i := rfl
@[simp] theorem State.answer_pc (r : Reply) : (s.answer r).pc = s.pc := rfl
@[simp] theorem State.answer_stack (r : Reply) : (s.answer r).stack = s.stack := rfl
@[simp] theorem State.answer_sp (r : Reply) : (s.answer r).sp = s.sp := rfl
@[simp] theorem State.answer_dt (r : Reply) : (s.answer r).dt = s.dt := rfl
@[simp] theorem State.answer_st (r : Reply) : (s.answer r).st = s.st := rfl
@[simp] theorem State.answer_display (r : Reply) : (s.answer r).display = s.display := rfl
@[simp] theorem State.answer_key (r : Reply) : (s.answer r).key = s.key := rfl
@[simp] theorem State.answer_run (r : Reply) : (s.answer r).run = s.run := rfl
@[simp] theorem State.answer_fault (r : Reply) : (s.answer r).fault = s.fault := rfl
@[simp] theorem State.answer_rnd (r : Reply) : (s.answer r).rnd = s.rnd := rfl
@[simp] theorem State.answer_draws (r : Reply) : (s.answer r).draws = s.draws := rfl
@[simp] theorem State.answer_pending (r : Reply) : (s.answer r).pending = s.pending := rfl
@[simp] theorem State.answer_reply (r : Reply) : (s.answer r).reply = some r := rfl

/-! ### setRegs -/

@[simp] theorem State.setRegs_mem (bs : List Byte) : (s.setRegs bs).mem = s.mem := rfl
@[simp] theorem State.setRegs_v (bs : List Byte) : (s.setRegs bs).v = Vector.ofFn fun k : Fin 16 => bs.getD k.val (s.v.get k) :=
  rfl
@[simp] theorem State.setRegs_i (bs : List Byte) : (s.setRegs bs).i = s.i := rfl
@[simp] theorem State.setRegs_pc (bs : List Byte) : (s.setRegs bs).pc = s.pc := rfl
@[simp] theorem State.setRegs_stack (bs : List Byte) : (s.setRegs bs).stack = s.stack := rfl
@[simp] theorem State.setRegs_sp (bs : List Byte) : (s.setRegs bs).sp = s.sp := rfl
@[simp] theorem State.setRegs_dt (bs : List Byte) : (s.setRegs bs).dt = s.dt := rfl
@[simp] theorem State.setRegs_st (bs : List Byte) : (s.setRegs bs).st = s.st := rfl
@[simp] theorem State.setRegs_display (bs : List Byte) : (s.setRegs bs).display = s.display := rfl
@[simp] theorem State.setRegs_key (bs : List Byte) : (s.setRegs bs).key = s.key := rfl
@[simp] theorem State.setRegs_run (bs : List Byte) : (s.setRegs bs).run = s.run := rfl
@[simp] theorem State.setRegs_fault (bs : List Byte) : (s.setRegs bs).fault = s.fault := rfl
@[simp] theorem State.setRegs_rnd (bs : List Byte) : (s.setRegs bs).rnd = s.rnd := rfl
@[simp] theorem State.setRegs_draws (bs : List Byte) : (s.setRegs bs).draws = s.draws := rfl
@[simp] theorem State.setRegs_pending (bs : List Byte) : (s.setRegs bs).pending = s.pending := rfl
@[simp] theorem State.setRegs_reply (bs : List Byte) : (s.setRegs bs).reply = s.reply := rfl

/-! ### setDisplay -/

@[simp] theorem State.setDisplay_mem (d : Display) : (s.setDisplay d).mem = s.mem := rfl
@[simp] theorem State.setDisplay_v (d : Display) : (s.setDisplay d).v = s.v := rfl
@[simp] theorem State.setDisplay_i (d : Display) : (s.setDisplay d).i = s.i := rfl
@[simp] theorem State.setDisplay_pc (d : Display) : (s.setDisplay d).pc = s.pc := rfl
@[simp] theorem State.setDisplay_stack (d : Display) : (s.setDisplay d).stack = s.stack := rfl
@[simp] theorem State.setDisplay_sp (d : Display) : (s.setDisplay d).sp = s.sp := rfl
@[simp] theorem State.setDisplay_dt (d : Display) : (s.setDisplay d).dt = s.dt := rfl
@[simp] theorem State.setDisplay_st (d : Display) : (s.setDisplay d).st = s.st := rfl
@[simp] theorem State.setDisplay_display (d : Display) : (s.setDisplay d).display = d := rfl
@[simp] theorem State.setDisplay_key (d : Display) : (s.setDisplay d).key = s.key := rfl
@[simp] theorem State.setDisplay_run (d : Display) : (s.setDisplay d).run = s.run := rfl
@[simp] theorem State.setDisplay_fault (d : Display) : (s.setDisplay d).fault = s.fault := rfl
@[simp] theorem State.setDisplay_rnd (d : Display) : (s.setDisplay d).rnd = s.rnd := rfl
@[simp] theorem State.setDisplay_draws (d : Display) : (s.setDisplay d).draws = s.draws := rfl
@[simp] theorem State.setDisplay_pending (d : Display) : (s.setDisplay d).pending = s.pending := rfl
@[simp] theorem State.setDisplay_reply (d : Display) : (s.setDisplay d).reply = s.reply := rfl

/-! ### setKey -/

@[simp] theorem State.setKey_mem (k : Option Nibble) : (s.setKey k).mem = s.mem := rfl
@[simp] theorem State.setKey_v (k : Option Nibble) : (s.setKey k).v = s.v := rfl
@[simp] theorem State.setKey_i (k : Option Nibble) : (s.setKey k).i = s.i := rfl
@[simp] theorem State.setKey_pc (k : Option Nibble) : (s.setKey k).pc = s.pc := rfl
@[simp] theorem State.setKey_stack (k : Option Nibble) : (s.setKey k).stack = s.stack := rfl
@[simp] theorem State.setKey_sp (k : Option Nibble) : (s.setKey k).sp = s.sp := rfl
@[simp] theorem State.setKey_dt (k : Option Nibble) : (s.setKey k).dt = s.dt := rfl
@[simp] theorem State.setKey_st (k : Option Nibble) : (s.setKey k).st = s.st := rfl
@[simp] theorem State.setKey_display (k : Option Nibble) : (s.setKey k).display = s.display := rfl
@[simp] theorem State.setKey_key (k : Option Nibble) : (s.setKey k).key = k := rfl
@[simp] theorem State.setKey_run (k : Option Nibble) : (s.setKey k).run = s.run := rfl
@[simp] theorem State.setKey_fault (k : Option Nibble) : (s.setKey k).fault = s.fault := rfl
@[simp] theorem State.setKey_rnd (k : Option Nibble) : (s.setKey k).rnd = s.rnd := rfl
@[simp] theorem State.setKey_draws (k : Option Nibble) : (s.setKey k).draws = s.draws := rfl
@[simp] theorem State.setKey_pending (k : Option Nibble) : (s.setKey k).pending = s.pending := rfl
@[simp] theorem State.setKey_reply (k : Option Nibble) : (s.setKey k).reply = s.reply := rfl

/-! ### timerTick -/

@[simp] theorem State.timerTick_mem : s.timerTick.mem = s.mem := rfl
@[simp] theorem State.timerTick_v : s.timerTick.v = s.v := rfl
@[simp] theorem State.timerTick_i : s.timerTick.i = s.i := rfl
@[simp] theorem State.timerTick_pc : s.timerTick.pc = s.pc := rfl
@[simp] theorem State.timerTick_stack : s.timerTick.stack = s.stack := rfl
@[simp] theorem State.timerTick_sp : s.timerTick.sp = s.sp := rfl
@[simp] theorem State.timerTick_dt : s.timerTick.dt = tickTimer s.dt := rfl
@[simp] theorem State.timerTick_st : s.timerTick.st = tickTimer s.st := rfl
@[simp] theorem State.timerTick_display : s.timerTick.display = s.display := rfl
@[simp] theorem State.timerTick_key : s.timerTick.key = s.key := rfl
@[simp] theorem State.timerTick_run : s.timerTick.run = s.run := rfl
@[simp] theorem State.timerTick_fault : s.timerTick.fault = s.fault := rfl
@[simp] theorem State.timerTick_rnd : s.timerTick.rnd = s.rnd := rfl
@[simp] theorem State.timerTick_draws : s.timerTick.draws = s.draws := rfl
@[simp] theorem State.timerTick_pending : s.timerTick.pending = s.pending := rfl
@[simp] theorem State.timerTick_reply : s.timerTick.reply = s.reply := rfl

/-! ### poweredOn -/

@[simp] theorem State.poweredOn_mem (p : Parameters) (rom : List Byte) : (s.poweredOn p rom).mem = powerOnMemory p rom := rfl
@[simp] theorem State.poweredOn_v (p : Parameters) (rom : List Byte) : (s.poweredOn p rom).v = Vector.replicate 16 0 := rfl
@[simp] theorem State.poweredOn_i (p : Parameters) (rom : List Byte) : (s.poweredOn p rom).i = 0 := rfl
@[simp] theorem State.poweredOn_pc (p : Parameters) (rom : List Byte) : (s.poweredOn p rom).pc = 0x200 := rfl
@[simp] theorem State.poweredOn_stack (p : Parameters) (rom : List Byte) : (s.poweredOn p rom).stack = Vector.replicate 16 0 := rfl
@[simp] theorem State.poweredOn_sp (p : Parameters) (rom : List Byte) : (s.poweredOn p rom).sp = 0 := rfl
@[simp] theorem State.poweredOn_dt (p : Parameters) (rom : List Byte) : (s.poweredOn p rom).dt = 0 := rfl
@[simp] theorem State.poweredOn_st (p : Parameters) (rom : List Byte) : (s.poweredOn p rom).st = 0 := rfl
@[simp] theorem State.poweredOn_display (p : Parameters) (rom : List Byte) : (s.poweredOn p rom).display = Vector.replicate 64 (Vector.replicate 32 false) :=
  rfl
@[simp] theorem State.poweredOn_key (p : Parameters) (rom : List Byte) : (s.poweredOn p rom).key = none := rfl
@[simp] theorem State.poweredOn_run (p : Parameters) (rom : List Byte) : (s.poweredOn p rom).run = .running := rfl
@[simp] theorem State.poweredOn_fault (p : Parameters) (rom : List Byte) : (s.poweredOn p rom).fault = none := rfl
@[simp] theorem State.poweredOn_rnd (p : Parameters) (rom : List Byte) : (s.poweredOn p rom).rnd = none := rfl
@[simp] theorem State.poweredOn_draws (p : Parameters) (rom : List Byte) : (s.poweredOn p rom).draws = s.draws := rfl
@[simp] theorem State.poweredOn_pending (p : Parameters) (rom : List Byte) : (s.poweredOn p rom).pending = s.pending := rfl
@[simp] theorem State.poweredOn_reply (p : Parameters) (rom : List Byte) : (s.poweredOn p rom).reply = none := rfl

/-! ### Skips -/

@[simp] theorem State.skipIf_mem (c : Bool) : (s.skipIf c).mem = s.mem := by cases c <;> rfl
@[simp] theorem State.skipIf_v (c : Bool) : (s.skipIf c).v = s.v := by cases c <;> rfl
@[simp] theorem State.skipIf_i (c : Bool) : (s.skipIf c).i = s.i := by cases c <;> rfl
@[simp] theorem State.skipIf_pc (c : Bool) : (s.skipIf c).pc = if c then s.pc + 2 else s.pc := by
  cases c <;> rfl
@[simp] theorem State.skipIf_stack (c : Bool) : (s.skipIf c).stack = s.stack := by cases c <;> rfl
@[simp] theorem State.skipIf_sp (c : Bool) : (s.skipIf c).sp = s.sp := by cases c <;> rfl
@[simp] theorem State.skipIf_dt (c : Bool) : (s.skipIf c).dt = s.dt := by cases c <;> rfl
@[simp] theorem State.skipIf_st (c : Bool) : (s.skipIf c).st = s.st := by cases c <;> rfl
@[simp] theorem State.skipIf_display (c : Bool) : (s.skipIf c).display = s.display := by cases c <;> rfl
@[simp] theorem State.skipIf_key (c : Bool) : (s.skipIf c).key = s.key := by cases c <;> rfl
@[simp] theorem State.skipIf_run (c : Bool) : (s.skipIf c).run = s.run := by cases c <;> rfl
@[simp] theorem State.skipIf_fault (c : Bool) : (s.skipIf c).fault = s.fault := by cases c <;> rfl
@[simp] theorem State.skipIf_rnd (c : Bool) : (s.skipIf c).rnd = s.rnd := by cases c <;> rfl
@[simp] theorem State.skipIf_draws (c : Bool) : (s.skipIf c).draws = s.draws := by cases c <;> rfl
@[simp] theorem State.skipIf_pending (c : Bool) : (s.skipIf c).pending = s.pending := by cases c <;> rfl
@[simp] theorem State.skipIf_reply (c : Bool) : (s.skipIf c).reply = s.reply := by cases c <;> rfl

/-! ### Fault entry of an executing instruction -/

theorem State.raiseFault_eq (k : FaultKind) (i : Instr) (n : Nat) :
    s.raiseFault k i n = s.takeFault (s.pc - 2) k (some (encode i)) n := rfl

/-! ### Reading the parts of a state -/

theorem State.reg_congr {s t : State} (h : t.v = s.v) (r : Reg) : t.reg r = s.reg r := by
  simp only [State.reg, h]

theorem State.read_congr {s t : State} (h : t.mem = s.mem) (a : Nat) : t.read a = s.read a := by
  simp only [State.read, h]

theorem State.cell_congr {s t : State} (h : t.display = s.display) (x : Fin 64) (y : Fin 32) :
    t.cell x y = s.cell x y := by
  simp only [State.cell, h]

theorem State.fetchWord_congr {s t : State} (hm : t.mem = s.mem) (hp : t.pc = s.pc) : t.fetchWord = s.fetchWord := by
  simp only [State.fetchWord, State.read, hm, hp]

@[simp] theorem State.reg_setReg_self (x : Reg) (b : Byte) : (s.setReg x b).reg x = b := by
  simp [State.reg]

theorem State.reg_setReg (x r : Reg) (b : Byte) : (s.setReg x b).reg r = if r = x then b else s.reg r := by
  by_cases h : r = x
  · subst h; simp
  · have : x.toNat ≠ r.toNat := fun e => h (BitVec.eq_of_toNat_eq e.symm)
    simp [State.reg, h, Vector.getElem_set_ne, this]

theorem State.reg_setReg_ne {x r : Reg} (h : r ≠ x) (b : Byte) : (s.setReg x b).reg r = s.reg r := by
  simp [State.reg_setReg, h]

/-- VF takes the flag; the destination takes the result unless it is VF itself; the other registers keep their values. -/
theorem State.reg_setRegThenFlag (x r : Reg) (b : Byte) (c : Bool) :
    (s.setRegThenFlag x b c).reg r = if r = vF then flagByte c else if r = x then b else s.reg r := by
  simp only [State.setRegThenFlag, State.setFlag, State.reg_setReg]

/-- An ALU operation with a flag is two register writes, VF last. -/
theorem State.setRegThenFlag_eq (x : Reg) (b : Byte) (c : Bool) :
    s.setRegThenFlag x b c = (s.setReg x b).setReg vF (flagByte c) := rfl

theorem State.setFlag_eq (c : Bool) : s.setFlag c = s.setReg vF (flagByte c) := rfl

theorem State.reg_setRegs (bs : List Byte) (r : Reg) : (s.setRegs bs).reg r = bs.getD r.toNat (s.reg r) := by
  simp [State.reg, State.setRegs, Vector.get]

/-! ### The registers as a list -/

theorem State.regsUpTo_length (x : Reg) : (s.regsUpTo x).length = x.toNat + 1 := by
  have := x.isLt
  simp only [State.regsUpTo, List.length_take, Vector.length_toList]
  omega

theorem State.regsUpTo_getElem? (x r : Reg) (h : r ≤ x) : (s.regsUpTo x)[r.toNat]? = some (s.reg r) := by
  have h1 : r.toNat ≤ x.toNat := h
  have h2 := r.isLt
  simp [State.regsUpTo, State.reg, Nat.lt_succ_of_le h1]

end Sys2Proof.Machine
end

