-- ==== Sys2Proof/Laws/Display.lean ====
section
/-! SUPPORT. The display: a cell after a cell is set, and what drawing one sprite bit does. -/

namespace Sys2Proof.Machine

theorem Display.cell_setCell (d : Display) (x cx : Fin 64) (y cy : Fin 32) (b : Bool) :
    (d.setCell x y b).cell cx cy = if cx = x ∧ cy = y then b else d.cell cx cy := by
  simp only [Display.cell, Display.setCell, Vector.getElem_set, Fin.ext_iff]
  by_cases hx : x.val = cx.val
  · by_cases hy : y.val = cy.val
    · simp [hx, hy]
    · simp [hx, hy, Ne.symm hy]
  · simp [hx, Ne.symm hx]

theorem Display.cell_blank (cx : Fin 64) (cy : Fin 32) : Display.blank.cell cx cy = false := by
  simp [Display.blank, Display.cell]

/-- Two displays with the same cells are the same display. -/
theorem Display.ext_cell {d e : Display} (h : ∀ cx cy, d.cell cx cy = e.cell cx cy) : d = e := by
  apply Vector.ext
  intro a ha
  apply Vector.ext
  intro b hb
  exact h ⟨a, ha⟩ ⟨b, hb⟩

/-- A plotted bit flips the cell it lands on and no other; beyond the display it flips none (R112, R113). -/
theorem plotBit_cell (p : Drawing) (xx yy : Nat) (cx : Fin 64) (cy : Fin 32) :
    (plotBit p xx yy).1.cell cx cy = if xx = cx.val ∧ yy = cy.val then !p.1.cell cx cy else p.1.cell cx cy := by
  have hx := cx.isLt
  have hy := cy.isLt
  by_cases h : xx ≤ 63 ∧ yy ≤ 31
  · simp only [plotBit, dif_pos h, Display.cell_setCell]
    by_cases e : xx = cx.val ∧ yy = cy.val
    · obtain ⟨rfl, rfl⟩ := e
      simp
    · rw [if_neg e, if_neg]
      rintro ⟨rfl, rfl⟩
      exact e ⟨rfl, rfl⟩
  · have e : ¬ (xx = cx.val ∧ yy = cy.val) := by
      rintro ⟨rfl, rfl⟩; omega
    simp [plotBit, h, e]

/-- A plotted bit is a collision when the cell it lands on was set (R114). -/
theorem plotBit_collision (p : Drawing) (xx yy : Nat) :
    (plotBit p xx yy).2 = true ↔
      p.2 = true ∨ ∃ (cx : Fin 64) (cy : Fin 32), xx = cx.val ∧ yy = cy.val ∧ p.1.cell cx cy = true := by
  by_cases h : xx ≤ 63 ∧ yy ≤ 31
  · have hx : xx < 64 := by omega
    have hy : yy < 32 := by omega
    simp only [plotBit, dif_pos h, Bool.or_eq_true]
    constructor
    · rintro (h1 | h1)
      · exact .inl h1
      · exact .inr ⟨⟨xx, hx⟩, ⟨yy, hy⟩, rfl, rfl, h1⟩
    · rintro (h1 | ⟨cx, cy, rfl, rfl, h1⟩)
      · exact .inl h1
      · exact .inr h1
  · simp only [plotBit, dif_neg h]
    constructor
    · exact .inl
    · rintro (h1 | ⟨cx, cy, rfl, rfl, -⟩)
      · exact h1
      · have := cx.isLt; have := cy.isLt; omega

/-- Bit i of a row from the left lands on column x0 + i: cell by cell, what a row of a sprite flips (R112). -/
theorem drawRow_eq (row : Byte) (x0 yy : Nat) (p : Drawing) :
    drawRow row x0 yy p =
      (List.range 8).foldl (fun q i => if spriteBit row i then plotBit q (x0 + i) yy else q) p := rfl

end Sys2Proof.Machine
end

