-- ==== Sys2Proof/Laws/Memory.lean ====
section
/-! SUPPORT. Memory: read after write, the canonical form that every memory operation keeps, and what the checked
accesses answer. -/

namespace Sys2Proof.Machine

/-! ### One byte -/

theorem Memory.read_erase (m : Memory) (a c : Nat) :
    (m.erase a).read c = if c = a then unlistedByte a else m.read c := by
  induction m with
  | nil => by_cases h : c = a <;> simp [Memory.erase, Memory.read, h]
  | cons d m ih =>
    obtain ⟨b, v⟩ := d
    simp only [Memory.erase] at ih ⊢
    by_cases hb : b = a
    · subst hb
      rw [List.filter_cons_of_neg (by simp), ih]
      by_cases h : c = b <;> simp [Memory.read, h]
    · rw [List.filter_cons_of_pos (by simpa using hb)]
      simp only [Memory.read, ih]
      by_cases hc : c = b
      · subst hc; simp [hb]
      · simp [hc]

theorem Memory.read_insert (m : Memory) (a c : Nat) (v : Byte) (h : ∀ d ∈ m, d.1 ≠ a) :
    (m.insert a v).read c = if c = a then v else m.read c := by
  induction m with
  | nil => simp [Memory.insert, Memory.read]
  | cons d m ih =>
    obtain ⟨b, w⟩ := d
    have hb : b ≠ a := h (b, w) (by simp)
    have ih := ih fun d hd => h d (by simp [hd])
    by_cases hab : a < b
    · simp [Memory.insert, Memory.read, hab]
    · simp only [Memory.insert, if_neg hab, Memory.read, ih]
      by_cases hc : c = b
      · subst hc; simp [hb]
      · simp [hc]

theorem Memory.erase_ne (m : Memory) (a : Nat) : ∀ d ∈ m.erase a, d.1 ≠ a := by
  intro d hd
  simpa using (List.mem_filter.1 hd).2

/-- A read after a write: the byte written at its address, and every other address as it was. It holds of every memory,
canonical or not. -/
theorem Memory.read_write (m : Memory) (a c : Nat) (v : Byte) :
    (m.write a v).read c = if c = a then v else m.read c := by
  by_cases hv : v = unlistedByte a
  · simp only [Memory.write, if_pos hv, Memory.read_erase]
    by_cases h : c = a <;> simp [h, hv]
  · simp only [Memory.write, if_neg hv, Memory.read_insert _ _ _ _ (Memory.erase_ne m a), Memory.read_erase]
    by_cases h : c = a <;> simp [h]

/-! ### Consecutive bytes -/

/-- A read after a write of consecutive bytes. -/
theorem Memory.read_writeBytes (m : Memory) (a c : Nat) (bs : List Byte) :
    (m.writeBytes a bs).read c = if a ≤ c then (bs[c - a]?).getD (m.read c) else m.read c := by
  induction bs generalizing m a with
  | nil => simp [Memory.writeBytes]
  | cons b bs ih =>
    rw [Memory.writeBytes, ih, Memory.read_write]
    rcases Nat.lt_trichotomy c a with h | h | h
    · have h1 : ¬ a ≤ c := by omega
      have h2 : ¬ a + 1 ≤ c := by omega
      have h3 : c ≠ a := by omega
      simp [h1, h2, h3]
    · subst h
      simp
    · have h1 : a ≤ c := by omega
      have h2 : a + 1 ≤ c := by omega
      have h3 : c ≠ a := by omega
      have h4 : c - a = (c - (a + 1)) + 1 := by omega
      simp [h1, h2, h3, h4]

/-- The bytes outside those written keep their values. -/
theorem Memory.read_writeBytes_outside (m : Memory) (a c : Nat) (bs : List Byte) (h : c < a ∨ a + bs.length ≤ c) :
    (m.writeBytes a bs).read c = m.read c := by
  rw [Memory.read_writeBytes]
  split
  · rw [List.getElem?_eq_none (by omega)]; rfl
  · rfl

/-- The k-th byte written reads back. -/
theorem Memory.read_writeBytes_inside (m : Memory) (a k : Nat) (bs : List Byte) (h : k < bs.length) :
    (m.writeBytes a bs).read (a + k) = bs[k] := by
  rw [Memory.read_writeBytes, if_pos (by omega), Nat.add_sub_cancel_left, List.getElem?_eq_getElem h]
  rfl

/-! ### The canonical form -/

theorem Memory.wf_iff (m : Memory) :
    m.wf = true ↔ m.Pairwise (fun c d => c.1 < d.1) ∧ ∀ c ∈ m, c.1 ≤ Config.lastAddress ∧ c.2 ≠ unlistedByte c.1 := by
  simp [Memory.wf]

theorem Memory.mem_insert (m : Memory) (a : Nat) (v : Byte) (c : Host.Cell) :
    c ∈ m.insert a v ↔ c = (a, v) ∨ c ∈ m := by
  induction m with
  | nil => simp [Memory.insert]
  | cons d m ih =>
    obtain ⟨b, w⟩ := d
    by_cases h : a < b
    · simp [Memory.insert, h]
    · simp only [Memory.insert, if_neg h, List.mem_cons, ih]
      tauto

theorem Memory.pairwise_insert (m : Memory) (a : Nat) (v : Byte) (hm : m.Pairwise fun c d => c.1 < d.1)
    (h : ∀ d ∈ m, d.1 ≠ a) : (m.insert a v).Pairwise fun c d => c.1 < d.1 := by
  induction m with
  | nil => simp [Memory.insert]
  | cons d m ih =>
    obtain ⟨b, w⟩ := d
    obtain ⟨hb, hm⟩ := List.pairwise_cons.1 hm
    have hba : b ≠ a := h (b, w) (by simp)
    by_cases hab : a < b
    · simp only [Memory.insert, if_pos hab]
      refine List.pairwise_cons.2 ⟨fun c hc => ?_, List.pairwise_cons.2 ⟨hb, hm⟩⟩
      rcases List.mem_cons.1 hc with rfl | hc
      · exact hab
      · exact Nat.lt_trans hab (hb c hc)
    · simp only [Memory.insert, if_neg hab]
      refine List.pairwise_cons.2 ⟨fun c hc => ?_, ih hm fun d hd => h d (by simp [hd])⟩
      rcases (Memory.mem_insert m a v c).1 hc with rfl | hc
      · show b < a; omega
      · exact hb c hc

/-- A write within memory keeps the canonical form. -/
theorem Memory.wf_write {m : Memory} (hm : m.wf = true) {a : Nat} (ha : a ≤ Config.lastAddress) (v : Byte) :
    (m.write a v).wf = true := by
  rw [Memory.wf_iff] at hm ⊢
  have he : (m.erase a).Pairwise (fun c d => c.1 < d.1) ∧
      ∀ c ∈ m.erase a, c.1 ≤ Config.lastAddress ∧ c.2 ≠ unlistedByte c.1 :=
    ⟨hm.1.filter _, fun c hc => hm.2 c (List.mem_of_mem_filter hc)⟩
  by_cases hv : v = unlistedByte a
  · simpa only [Memory.write, if_pos hv] using he
  · simp only [Memory.write, if_neg hv]
    refine ⟨Memory.pairwise_insert _ _ _ he.1 (Memory.erase_ne m a), fun c hc => ?_⟩
    rcases (Memory.mem_insert _ a v c).1 hc with rfl | hc
    · exact ⟨ha, hv⟩
    · exact he.2 c hc

/-- A write of consecutive bytes within memory keeps the canonical form. -/
theorem Memory.wf_writeBytes {m : Memory} (hm : m.wf = true) {a : Nat} {bs : List Byte}
    (h : inRange a bs.length = true) : (m.writeBytes a bs).wf = true := by
  induction bs generalizing m a with
  | nil => exact hm
  | cons b bs ih =>
    simp only [inRange, List.length_cons, Nat.add_eq_zero_iff, beq_iff_eq, Bool.or_eq_true, decide_eq_true_eq] at h
    refine ih (Memory.wf_write hm (by omega) b) ?_
    simp only [inRange, beq_iff_eq, Bool.or_eq_true, decide_eq_true_eq]
    omega

/-! ### Filling -/

theorem Memory.fill_addr (f : Nat → Byte) (a n : Nat) :
    ∀ c ∈ Memory.fill f a n, a ≤ c.1 ∧ c.1 < a + n ∧ c.2 ≠ unlistedByte c.1 := by
  induction n generalizing a with
  | zero => simp [Memory.fill]
  | succ n ih =>
    intro c hc
    have below (h : c ∈ Memory.fill f (a + 1) n) : a ≤ c.1 ∧ c.1 < a + (n + 1) ∧ c.2 ≠ unlistedByte c.1 := by
      have := ih (a + 1) c h
      exact ⟨by omega, by omega, this.2.2⟩
    by_cases hb : f a = unlistedByte a
    · exact below (by simpa only [Memory.fill, if_pos hb] using hc)
    · simp only [Memory.fill, if_neg hb] at hc
      rcases List.mem_cons.1 hc with rfl | hc
      · exact ⟨Nat.le_refl _, by show a < _; omega, hb⟩
      · exact below hc

/-- A filled memory is canonical when it lies within memory. -/
theorem Memory.wf_fill (f : Nat → Byte) (a n : Nat) (h : a + n ≤ Config.lastAddress + 1) : (Memory.fill f a n).wf = true := by
  rw [Memory.wf_iff]
  refine ⟨?_, fun c hc => ?_⟩
  · clear h
    induction n generalizing a with
    | zero => simp [Memory.fill]
    | succ n ih =>
      by_cases hb : f a = unlistedByte a
      · simpa only [Memory.fill, if_pos hb] using ih (a + 1)
      · simp only [Memory.fill, if_neg hb]
        refine List.pairwise_cons.2 ⟨fun c hc => ?_, ih (a + 1)⟩
        exact (Memory.fill_addr f (a + 1) n c hc).1
  · have := Memory.fill_addr f a n c hc
    exact ⟨by omega, this.2.2⟩

/-- A filled memory reads as the function where it is filled, and as an unlisted address elsewhere. -/
theorem Memory.read_fill (f : Nat → Byte) (a n c : Nat) :
    (Memory.fill f a n).read c = if a ≤ c ∧ c < a + n then f c else unlistedByte c := by
  induction n generalizing a with
  | zero => rw [if_neg (by omega)]; rfl
  | succ n ih =>
    have hread : (Memory.fill f a (n + 1)).read c = if c = a then f a else (Memory.fill f (a + 1) n).read c := by
      by_cases hb : f a = unlistedByte a
      · rw [Memory.fill, if_pos hb]
        by_cases hc : c = a
        · rw [if_pos hc, ih, if_neg (by omega), hc, hb]
        · rw [if_neg hc]
      · rw [Memory.fill, if_neg hb]; rfl
    rw [hread, ih]
    by_cases hc : c = a
    · rw [if_pos hc, if_pos (by omega), hc]
    · by_cases hin : a ≤ c ∧ c < a + (n + 1)
      · rw [if_neg hc, if_pos (by omega), if_pos hin]
      · rw [if_neg hc, if_neg (by omega), if_neg hin]

/-! ### Power-on (R144) -/

theorem powerOnByte_rom (p : Parameters) (rom : List Byte) (k : Nat) (h : k < rom.length) :
    powerOnByte p rom (Config.romBase + k) = rom[k] := by
  simp [powerOnByte, h]

theorem powerOnByte_font (p : Parameters) (rom : List Byte) (k : Nat) (h : k < 80) :
    powerOnByte p rom (Config.fontBase + k) = p.font[k] := by
  have h1 : ¬ (Config.romBase ≤ Config.fontBase + k ∧ Config.fontBase + k < Config.romBase + rom.length) := by
    simp only [Config.romBase, Config.fontBase]; omega
  have h2 : Config.fontBase ≤ Config.fontBase + k ∧ Config.fontBase + k < Config.fontBase + 80 := by omega
  simp only [powerOnByte, if_neg h1, dif_pos h2, Nat.add_sub_cancel_left]

theorem powerOnByte_memInit (p : Parameters) (rom : List Byte) (a : Nat)
    (h : a < 0x050 ∨ 0x0A0 ≤ a ∧ a < 0x200 ∨ 0x200 + rom.length ≤ a) : powerOnByte p rom a = p.memInit a := by
  have h1 : ¬ (Config.romBase ≤ a ∧ a < Config.romBase + rom.length) := by
    simp only [Config.romBase]; omega
  have h2 : ¬ (Config.fontBase ≤ a ∧ a < Config.fontBase + 80) := by
    simp only [Config.fontBase]; omega
  simp only [powerOnByte, if_neg h1, dif_neg h2]

/-- Every byte of the memory that PowerOn builds is at its power-on value, whatever the parameters. -/
theorem read_powerOnMemory (p : Parameters) (rom : List Byte) (a : Nat) (h : a ≤ Config.lastAddress) :
    (powerOnMemory p rom).read a = powerOnByte p rom a := by
  rw [powerOnMemory, Memory.read_fill, if_pos (by omega)]

theorem wf_powerOnMemory (p : Parameters) (rom : List Byte) : (powerOnMemory p rom).wf = true := by
  rw [powerOnMemory]
  exact Memory.wf_fill _ _ _ (by omega)

/-! ### The checked accesses -/

theorem inRange_iff (a n : Nat) : inRange a n = true ↔ n = 0 ∨ a + n ≤ 0x1000 := by
  simp only [inRange, beq_iff_eq, Bool.or_eq_true, decide_eq_true_eq, Config.lastAddress]
  omega

theorem inRange_two (a : Nat) : inRange a 2 = true ↔ a ≤ 0xFFE := by
  rw [inRange_iff]; omega

/-- All that a checked load can answer. -/
theorem State.loadBytes_cases (s : State) (a n : Nat) :
    (inRange a n = true ∧ s.loadBytes a n = some ((List.range n).map fun k => s.read (a + k))) ∨
    (inRange a n = false ∧ s.loadBytes a n = none) := by
  cases h : inRange a n <;> simp [State.loadBytes, h]

theorem State.loadBytes_inRange {s : State} {a n : Nat} (h : inRange a n = true) :
    s.loadBytes a n = some ((List.range n).map fun k => s.read (a + k)) := by
  simp [State.loadBytes, h]

theorem State.loadBytes_outside {s : State} {a n : Nat} (h : inRange a n = false) : s.loadBytes a n = none := by
  simp [State.loadBytes, h]

/-- All that a checked store can answer. -/
theorem State.storeBytes_cases (s : State) (a : Nat) (bs : List Byte) :
    (inRange a bs.length = true ∧ s.storeBytes a bs = some { s with mem := s.mem.writeBytes a bs }) ∨
    (inRange a bs.length = false ∧ s.storeBytes a bs = none) := by
  cases h : inRange a bs.length <;> simp [State.storeBytes, h]

theorem State.storeBytes_inRange {s : State} {a : Nat} {bs : List Byte} (h : inRange a bs.length = true) :
    s.storeBytes a bs = some { s with mem := s.mem.writeBytes a bs } := by
  simp [State.storeBytes, h]

theorem State.storeBytes_outside {s : State} {a : Nat} {bs : List Byte} (h : inRange a bs.length = false) :
    s.storeBytes a bs = none := by
  simp [State.storeBytes, h]

/-- All that a fetch can answer. -/
theorem State.fetchWord_cases (s : State) :
    (s.pc.toNat ≤ 0xFFE ∧ s.fetchWord = some (composeWord (s.read s.pc.toNat) (s.read (s.pc.toNat + 1)))) ∨
    (0xFFE < s.pc.toNat ∧ s.fetchWord = none) := by
  by_cases h : s.pc.toNat ≤ 0xFFE
  · exact .inl ⟨h, by simp [State.fetchWord, (inRange_two _).2 h]⟩
  · have : inRange s.pc.toNat 2 = false := by
      rw [← Bool.not_eq_true, inRange_two]; exact h
    exact .inr ⟨by omega, by simp [State.fetchWord, this]⟩

end Sys2Proof.Machine
end

