-- ==== Sys2Proof/Laws/Exec.lean ====
section
/-! SUPPORT. What each meaning that has more than one case can answer, what a cycle and a step can answer, and the words of
the statements: frames and parts. -/

namespace Sys2Proof.Machine

variable (s : State)

/-! ### The stack -/

/-- All that Push can answer (R25). -/
theorem State.push_cases (a : Word) :
    (∃ h : s.sp.val < 16, s.push a = some { s with stack := s.stack.set s.sp.val a h,
                                                   sp := ⟨s.sp.val + 1, Nat.succ_lt_succ h⟩ }) ∨
    (s.sp.val = 16 ∧ s.push a = none) := by
  by_cases h : s.sp.val < 16
  · exact .inl ⟨h, by simp [State.push, h]⟩
  · have := s.sp.isLt
    exact .inr ⟨by omega, by simp [State.push, h]⟩

/-- All that Pop can answer (R25). -/
theorem State.pop_cases :
    (∃ k : Fin 16, k.val + 1 = s.sp.val ∧ s.pop = some (s.stack.get k, { s with sp := k.castSucc })) ∨
    (s.sp.val = 0 ∧ s.pop = none) := by
  by_cases h : 0 < s.sp.val
  · have := s.sp.isLt
    have hk : s.sp.val - 1 < 16 := by omega
    refine .inl ⟨⟨s.sp.val - 1, hk⟩, by show s.sp.val - 1 + 1 = _; omega, ?_⟩
    simp only [State.pop, dif_pos h]
    rfl
  · exact .inr ⟨by omega, by simp [State.pop, h]⟩

/-! ### The meanings with more than one case -/

theorem State.memoryFault_eq (i : Instr) :
    s.memoryFault i = s.raiseFault .memoryBounds i (max s.i.toNat 0x1000) := rfl


theorem execCall_cases (nnn : Addr12) :
    (∃ h : s.sp.val < 16, execCall nnn s = .next { s with stack := s.stack.set s.sp.val s.pc h,
                                                          sp := ⟨s.sp.val + 1, Nat.succ_lt_succ h⟩,
                                                          pc := addressOperand nnn }) ∨
    (s.sp.val = 16 ∧ execCall nnn s = .next (s.raiseFault .stackOverflow (.call nnn) 16)) := by
  rcases s.push_cases s.pc with ⟨h, e⟩ | ⟨h, e⟩
  · exact .inl ⟨h, by simp only [execCall, e]; rfl⟩
  · exact .inr ⟨h, by simp only [execCall, e, h]⟩

theorem execRet_cases (u : Nibble) :
    (∃ k : Fin 16, k.val + 1 = s.sp.val ∧ execRet u s = .next { s with sp := k.castSucc, pc := s.stack.get k }) ∨
    (s.sp.val = 0 ∧ execRet u s = .next (s.raiseFault .stackUnderflow (.ret u) 0)) := by
  rcases s.pop_cases with ⟨k, h, e⟩ | ⟨h, e⟩
  · exact .inl ⟨k, h, by simp only [execRet, e]; rfl⟩
  · exact .inr ⟨h, by simp only [execRet, e, h]⟩

theorem execLdBcd_cases (x : Reg) :
    (inRange s.i.toNat 3 = true ∧
      execLdBcd x s = .next { s with mem := s.mem.writeBytes s.i.toNat (bcdDigits (s.reg x)) }) ∨
    (inRange s.i.toNat 3 = false ∧ execLdBcd x s = .next (s.memoryFault (.ldBcd x))) := by
  rcases s.storeBytes_cases (s.effectiveAddress 0) (bcdDigits (s.reg x)) with ⟨h, e⟩ | ⟨h, e⟩
  · exact .inl ⟨h, by simp only [execLdBcd, e]; rfl⟩
  · exact .inr ⟨h, by simp only [execLdBcd, e]⟩

theorem execStoreRegs_cases (x : Reg) :
    (inRange s.i.toNat (x.toNat + 1) = true ∧
      execStoreRegs x s = .next { s with mem := s.mem.writeBytes s.i.toNat (s.regsUpTo x) }) ∨
    (inRange s.i.toNat (x.toNat + 1) = false ∧ execStoreRegs x s = .next (s.memoryFault (.storeRegs x))) := by
  have hl := s.regsUpTo_length x
  rcases s.storeBytes_cases (s.effectiveAddress 0) (s.regsUpTo x) with ⟨h, e⟩ | ⟨h, e⟩
  · exact .inl ⟨hl ▸ h, by simp only [execStoreRegs, e]; rfl⟩
  · exact .inr ⟨hl ▸ h, by simp only [execStoreRegs, e]⟩

theorem execLoadRegs_cases (x : Reg) :
    (inRange s.i.toNat (x.toNat + 1) = true ∧
      execLoadRegs x s = .next (s.setRegs ((List.range (x.toNat + 1)).map fun k => s.read (s.i.toNat + k)))) ∨
    (inRange s.i.toNat (x.toNat + 1) = false ∧ execLoadRegs x s = .next (s.memoryFault (.loadRegs x))) := by
  rcases s.loadBytes_cases (s.effectiveAddress 0) (x.toNat + 1) with ⟨h, e⟩ | ⟨h, e⟩
  · exact .inl ⟨h, by simp only [execLoadRegs, e]; rfl⟩
  · exact .inr ⟨h, by simp only [execLoadRegs, e]⟩

/-- The drawing DRW makes: its sprite's rows, from the start column and row, on the display of the state (R112). -/
def State.drawing (s : State) (x y : Reg) (n : Nibble) : Drawing :=
  drawRows ((List.range n.toNat).map fun k => s.read (s.i.toNat + k)) (startColumn (s.reg x)) (startRow (s.reg y))
    (s.display, false)

theorem execDrw_cases (x y : Reg) (n : Nibble) :
    (inRange s.i.toNat n.toNat = true ∧
      execDrw x y n s = .next ((s.setDisplay (s.drawing x y n).1).setFlag (s.drawing x y n).2)) ∨
    (inRange s.i.toNat n.toNat = false ∧ execDrw x y n s = .next (s.memoryFault (.drw x y n))) := by
  rcases s.loadBytes_cases (s.effectiveAddress 0) n.toNat with ⟨h, e⟩ | ⟨h, e⟩
  · exact .inl ⟨h, by simp only [execDrw, e]; rfl⟩
  · exact .inr ⟨h, by simp only [execDrw, e]⟩

theorem execLdKey_cases (x : Reg) :
    (s.key = none ∧ execLdKey x s = .next (s.setPc (s.pc - 2))) ∨
    (∃ k, s.key = some k ∧ execLdKey x s = .next (s.setReg x (keyByte k))) := by
  cases h : s.key with
  | none => exact .inl ⟨rfl, by simp only [execLdKey, h]⟩
  | some k => exact .inr ⟨k, rfl, by simp only [execLdKey, h]⟩

/-! ### The cycle and the step -/

/-- All that a cycle can answer (R73). -/
theorem cycleWith_cases (strict : Bool) (r : Option Byte) :
    (s.run = .halted ∧ cycleWith strict r s = .next (s.answer .halted)) ∨
    (s.run = .running ∧ s.fetchWord = none ∧
      cycleWith strict r s = .next (s.fetchFault.answer (s.fetchFault.cycleReply false))) ∨
    (∃ w e, s.run = .running ∧ s.fetchWord = some w ∧ decodeWord strict w = .error e ∧
      cycleWith strict r s = .refused (.refusedWord s.pc w)) ∨
    (∃ w i, s.run = .running ∧ s.fetchWord = some w ∧ decodeWord strict w = .ok i ∧
      cycleWith strict r s = finishCycle i (exec i (s.beginCycle r))) := by
  cases hr : s.run with
  | halted => exact .inl ⟨rfl, by simp only [cycleWith, hr]⟩
  | running =>
    cases hf : s.fetchWord with
    | none => exact .inr (.inl ⟨rfl, rfl, by simp only [cycleWith, hr, hf]⟩)
    | some w =>
      cases hd : decodeWord strict w with
      | error e => exact .inr (.inr (.inl ⟨w, e, rfl, rfl, hd, by simp only [cycleWith, hr, hf, hd]⟩))
      | ok i => exact .inr (.inr (.inr ⟨w, i, rfl, rfl, hd, by simp only [cycleWith, hr, hf, hd]⟩))

/-- All that PowerOn can leave (R144, R145). -/
theorem State.powerOn_cases (p : Parameters) (rom : List Byte) :
    (3584 < rom.length ∧ s.powerOn p rom = s.answer .romTooLarge) ∨
    (rom.length ≤ 3584 ∧ s.powerOn p rom = (s.poweredOn p rom).answer .ok) := by
  by_cases h : rom.length > Config.romMax
  · exact .inl ⟨h, by simp only [State.powerOn, if_pos h]⟩
  · exact .inr ⟨Nat.le_of_not_gt h, by simp only [State.powerOn, if_neg h]⟩

/-- All that a step can answer: a Cycle where nothing is pending, else the oldest transaction (R133, R134). -/
theorem step_cases :
    (s.pending = [] ∧ step s = cycleWith Config.strictDecode none s) ∨
    (∃ t rest, s.pending = t :: rest ∧ step s = transact parameters t { s with pending := rest }) := by
  cases h : s.pending with
  | nil => exact .inl ⟨rfl, by simp only [step, stepWith, h]; rfl⟩
  | cons t rest => exact .inr ⟨t, rest, rfl, by simp only [step, stepWith, h]⟩

theorem finishCycle_next (i : Instr) (t : State) :
    finishCycle i (.next t) = .next (t.answer (t.cycleReply (frameReady i))) := rfl

/-! ### Frames -/

theorem Part.same_refl (p : Part) : p.same s s := by cases p <;> rfl

theorem Part.same_trans {s t u : State} {p : Part} (h : p.same s t) (k : p.same t u) : p.same s u := by
  cases p <;> exact Eq.trans k h

theorem Frame.refl (w : Part → Prop) : Frame s s w := fun p _ => Part.same_refl s p

theorem Frame.mono {s t : State} {v w : Part → Prop} (h : Frame s t v) (hw : ∀ p, v p → w p) : Frame s t w :=
  fun p hp => h p fun hv => hp (hw p hv)

theorem Frame.trans {s t u : State} {w : Part → Prop} (h : Frame s t w) (k : Frame t u w) : Frame s u w :=
  fun p hp => Part.same_trans (h p hp) (k p hp)

theorem State.setReg_frame (x : Reg) (b : Byte) : Frame s (s.setReg x b) (These [.reg x]) := by
  intro p hp
  cases p with
  | reg r => exact State.reg_setReg_ne s (fun e => hp (by simp [These, e])) b
  | _ => rfl

theorem State.setPc_frame (a : Word) : Frame s (s.setPc a) (These [.pc]) := by
  intro p hp
  cases p with
  | pc => exact absurd (by simp [These]) hp
  | _ => rfl

theorem State.setI_frame (a : Word) : Frame s (s.setI a) (These [.i]) := by
  intro p hp
  cases p with
  | i => exact absurd (by simp [These]) hp
  | _ => rfl

theorem State.skipIf_frame (c : Bool) : Frame s (s.skipIf c) (These [.pc]) := by
  cases c
  · exact Frame.refl s _
  · exact s.setPc_frame _

/-- Fault entry changes PC, the run state and the fault record, and nothing else (R126). -/
theorem State.takeFault_frame (a : Word) (k : FaultKind) (w : Option Word) (n : Nat) :
    Frame s (s.takeFault a k w n) (These [.pc, .run, .fault]) := by
  intro p hp
  cases p with
  | pc | run | fault => exact absurd (by simp [These]) hp
  | _ => rfl

theorem State.setRegThenFlag_frame (x : Reg) (b : Byte) (c : Bool) :
    Frame s (s.setRegThenFlag x b c) (These [.reg x, .reg vF]) := by
  refine Frame.trans ((s.setReg_frame x b).mono ?_) (((s.setReg x b).setReg_frame vF (flagByte c)).mono ?_)
  · intro p hp; simp only [These, List.mem_singleton] at hp; simp [These, hp]
  · intro p hp; simp only [These, List.mem_singleton] at hp; simp [These, hp]

theorem State.setRegs_frame (bs : List Byte) (x : Reg) (h : bs.length ≤ x.toNat + 1) :
    Frame s (s.setRegs bs) (fun p => ∃ r : Reg, r ≤ x ∧ p = .reg r) := by
  intro p hp
  cases p with
  | reg r =>
    have h1 : ¬ r ≤ x := fun hr => hp ⟨r, hr, rfl⟩
    have h2 : x.toNat < r.toNat := by simpa [BitVec.le_def] using h1
    simp only [Part.same, State.reg_setRegs]
    exact List.getD_eq_default _ _ (by omega)
  | byte a => exact State.read_congr (s.setRegs_mem bs) a
  | cell cx cy => exact State.cell_congr (s.setRegs_display bs) cx cy
  | _ => simp [Part.same]

theorem State.setDisplay_frame (d : Display) :
    Frame s (s.setDisplay d) (fun p => ∃ cx cy, p = .cell cx cy) := by
  intro p hp
  cases p with
  | cell cx cy => exact absurd ⟨cx, cy, rfl⟩ hp
  | _ => rfl

/-- A store changes only the bytes it stores. -/
theorem State.store_frame (a : Nat) (bs : List Byte) :
    Frame s { s with mem := s.mem.writeBytes a bs } (TheseBytes a bs.length) := by
  intro p hp
  cases p with
  | byte c =>
    refine Memory.read_writeBytes_outside _ _ _ _ ?_
    by_contra hc
    exact hp ⟨c - a, by omega, by congr 1; omega⟩
  | _ => rfl

/-- Two states that agree in every part have the same registers, stack, display and special registers; only the listing of
memory can differ, and not what it reads as. -/
theorem Part.all_same {s t : State} (h : ∀ p : Part, p.same s t) : { t with mem := s.mem } = s := by
  have hv : t.v = s.v := by
    apply Vector.ext
    intro k hk
    have := h (.reg (BitVec.ofNat 4 k))
    simpa [Part.same, State.reg, Nat.mod_eq_of_lt hk] using this
  have hs : t.stack = s.stack := by
    apply Vector.ext
    intro k hk
    exact h (.entry ⟨k, hk⟩)
  have hd : t.display = s.display := Display.ext_cell fun cx cy => h (.cell cx cy)
  have hi : t.i = s.i := h .i
  have hpc : t.pc = s.pc := h .pc
  have hsp : t.sp = s.sp := h .sp
  have hdt : t.dt = s.dt := h .dt
  have hst : t.st = s.st := h .st
  have hk : t.key = s.key := h .key
  have hr : t.run = s.run := h .run
  have hf : t.fault = s.fault := h .fault
  have h1 : t.rnd = s.rnd := h .rnd
  have h2 : t.draws = s.draws := h .draws
  have h3 : t.pending = s.pending := h .pending
  have h4 : t.reply = s.reply := h .reply
  cases s; cases t
  simp_all

end Sys2Proof.Machine
end

