-- ==== Sys2Proof/Laws/PerInstr.lean ====
section
/-! SUPPORT. For every instruction: its encoding lies in its row of the opcode map, whatever its operands (R69). Masking a
format with a row's mask leaves the group and, where the row has one, the function nibble or byte. -/

namespace Sys2Proof.Laws.EncodeRow

/-- Masked by its row of the opcode map, the word of an instruction is that row's match value (R69). -/
def Statement (i : Instr) : Prop := encode i &&& (opcodeRow i).mask = (opcodeRow i).value

/-! ### Each format under each mask -/

/-- The mask F000 keeps the group of a format A word. -/
theorem formatA_mask (g : Nibble) (nnn : Addr12) : formatA g nnn &&& 0xF000 = formatA g 0 := by
  have h : (g ++ nnn) &&& ((0xF : Nibble) ++ (0 : Addr12)) = g ++ (0 : Addr12) := by
    rw [BitVec.and_append, show g &&& 0xF = g from BitVec.and_allOnes]; simp
  exact h

/-- The mask F000 keeps the group of a format XK word. -/
theorem formatXK_mask (g x : Nibble) (kk : Byte) : formatXK g x kk &&& 0xF000 = formatXK g 0 0 := by
  have h : (g ++ x ++ kk) &&& ((0xF : Nibble) ++ (0 : Nibble) ++ (0 : Byte)) = g ++ (0 : Nibble) ++ (0 : Byte) := by
    rw [BitVec.and_append, BitVec.and_append, show g &&& 0xF = g from BitVec.and_allOnes]; simp
  exact h

/-- The mask F0FF keeps the group and the function byte of a format X or N word. -/
theorem formatXK_mask_function (g x : Nibble) (fn : Byte) : formatXK g x fn &&& 0xF0FF = formatXK g 0 fn := by
  have h : (g ++ x ++ fn) &&& ((0xF : Nibble) ++ (0 : Nibble) ++ (0xFF : Byte)) = g ++ (0 : Nibble) ++ fn := by
    rw [BitVec.and_append, BitVec.and_append, show g &&& 0xF = g from BitVec.and_allOnes,
      show fn &&& 0xFF = fn from BitVec.and_allOnes]; simp
  exact h

/-- The mask F000 keeps the group of a format XY or XYN word. -/
theorem formatXYN_mask (g x y n : Nibble) : formatXYN g x y n &&& 0xF000 = formatXYN g 0 0 0 := by
  have h := formatXYN_and g x y n 0xF 0 0 0
  rw [show g &&& 0xF = g from BitVec.and_allOnes] at h
  simp only [show ∀ a : Nibble, a &&& 0 = 0 from fun _ => BitVec.and_zero] at h
  exact h

/-- The mask F00F keeps the group and the function nibble of a format XY word. -/
theorem formatXYN_mask_function (g x y fn : Nibble) : formatXYN g x y fn &&& 0xF00F = formatXYN g 0 0 fn := by
  have h := formatXYN_and g x y fn 0xF 0 0 0xF
  rw [show g &&& 0xF = g from BitVec.and_allOnes, show fn &&& 0xF = fn from BitVec.and_allOnes] at h
  simp only [show ∀ a : Nibble, a &&& 0 = 0 from fun _ => BitVec.and_zero] at h
  exact h

/-! ### Each instruction -/

theorem sys (nnn : Addr12) : Statement (.sys nnn) := by
  exact formatA_mask _ nnn

theorem cls (u : Nibble) : Statement (.cls u) := by
  exact formatXK_mask_function _ u _

theorem ret (u : Nibble) : Statement (.ret u) := by
  exact formatXK_mask_function _ u _

theorem jp (nnn : Addr12) : Statement (.jp nnn) := by
  exact formatA_mask _ nnn

theorem call (nnn : Addr12) : Statement (.call nnn) := by
  exact formatA_mask _ nnn

theorem seImm (x : Reg) (kk : Byte) : Statement (.seImm x kk) := by
  exact formatXK_mask _ x kk

theorem sneImm (x : Reg) (kk : Byte) : Statement (.sneImm x kk) := by
  exact formatXK_mask _ x kk

theorem seReg (x y : Reg) (u : Nibble) : Statement (.seReg x y u) := by
  exact formatXYN_mask _ x y u

theorem ldImm (x : Reg) (kk : Byte) : Statement (.ldImm x kk) := by
  exact formatXK_mask _ x kk

theorem addImm (x : Reg) (kk : Byte) : Statement (.addImm x kk) := by
  exact formatXK_mask _ x kk

theorem ldReg (x y : Reg) : Statement (.ldReg x y) := by
  exact formatXYN_mask_function _ x y _

theorem orReg (x y : Reg) : Statement (.orReg x y) := by
  exact formatXYN_mask_function _ x y _

theorem andReg (x y : Reg) : Statement (.andReg x y) := by
  exact formatXYN_mask_function _ x y _

theorem xorReg (x y : Reg) : Statement (.xorReg x y) := by
  exact formatXYN_mask_function _ x y _

theorem addReg (x y : Reg) : Statement (.addReg x y) := by
  exact formatXYN_mask_function _ x y _

theorem subReg (x y : Reg) : Statement (.subReg x y) := by
  exact formatXYN_mask_function _ x y _

theorem shr (x y : Reg) : Statement (.shr x y) := by
  exact formatXYN_mask_function _ x y _

theorem subnReg (x y : Reg) : Statement (.subnReg x y) := by
  exact formatXYN_mask_function _ x y _

theorem shl (x y : Reg) : Statement (.shl x y) := by
  exact formatXYN_mask_function _ x y _

theorem sneReg (x y : Reg) (u : Nibble) : Statement (.sneReg x y u) := by
  exact formatXYN_mask _ x y u

theorem ldI (nnn : Addr12) : Statement (.ldI nnn) := by
  exact formatA_mask _ nnn

theorem jpV0 (nnn : Addr12) : Statement (.jpV0 nnn) := by
  exact formatA_mask _ nnn

theorem rnd (x : Reg) (kk : Byte) : Statement (.rnd x kk) := by
  exact formatXK_mask _ x kk

theorem drw (x y : Reg) (n : Nibble) : Statement (.drw x y n) := by
  exact formatXYN_mask _ x y n

theorem skp (x : Reg) : Statement (.skp x) := by
  exact formatXK_mask_function _ x _

theorem sknp (x : Reg) : Statement (.sknp x) := by
  exact formatXK_mask_function _ x _

theorem ldFromDelay (x : Reg) : Statement (.ldFromDelay x) := by
  exact formatXK_mask_function _ x _

theorem ldKey (x : Reg) : Statement (.ldKey x) := by
  exact formatXK_mask_function _ x _

theorem ldDelay (x : Reg) : Statement (.ldDelay x) := by
  exact formatXK_mask_function _ x _

theorem ldSound (x : Reg) : Statement (.ldSound x) := by
  exact formatXK_mask_function _ x _

theorem addI (x : Reg) : Statement (.addI x) := by
  exact formatXK_mask_function _ x _

theorem ldFont (x : Reg) : Statement (.ldFont x) := by
  exact formatXK_mask_function _ x _

theorem ldBcd (x : Reg) : Statement (.ldBcd x) := by
  exact formatXK_mask_function _ x _

theorem storeRegs (x : Reg) : Statement (.storeRegs x) := by
  exact formatXK_mask_function _ x _

theorem loadRegs (x : Reg) : Statement (.loadRegs x) := by
  exact formatXK_mask_function _ x _

theorem undef8 (x y : Reg) (fn : Nibble) : Statement (.undef8 x y fn) := by
  exact formatXYN_mask _ x y fn

theorem undefE (x : Reg) (fn : Byte) : Statement (.undefE x fn) := by
  exact formatXK_mask _ x fn

theorem undefF (x : Reg) (fn : Byte) : Statement (.undefF x fn) := by
  exact formatXK_mask _ x fn

end Sys2Proof.Laws.EncodeRow
end

