-- ==== Sys2Proof/Tests/Slice0.lean ====
section
/-! SUPPORT. The model's own tests. Expected results come from spec/95_test_vectors.md (S<n> and V<n> below) or, for
decoding, from the opcode map of R69 written out bit by bit. The witnesses at the end show, for every statement that has
hypotheses, a state and operands that meet them. -/

namespace Sys2Proof.Tests

open Sys2Proof Sys2Proof.Machine

/-! ### Helpers -/

/-- The state one step after the instruction word `w` is placed where `s` fetches. -/
def after (w : Nat) (s : State) : Option State :=
  match step (s.withFetchWord 16 w) with
  | .next t => some t
  | _ => none

/-- The state after the next pending transaction. -/
def host (q : Transaction) (s : State) : Option State :=
  match step { s with pending := [q] } with
  | .next t => some t
  | _ => none

/-- The power-on state with two registers set. -/
def regs2 (x : Reg) (a : Byte) (y : Reg) (b : Byte) : State := (State.reset.setReg x a).setReg y b

/-- The state with bytes placed in memory. -/
def poke (s : State) (a : Nat) (bs : List Byte) : State := { s with mem := s.mem.writeBytes a bs }

/-- The columns of the display's set cells in one row. -/
def lit (s : State) (y : Fin 32) : List Nat := ((List.finRange 64).filter fun x => s.cell x y).map (·.val)

/-- A state for the draw tests: one sprite row at 0x300, I there, coordinates in V0 and V1. -/
def sprite (row : Byte) (vx vy : Byte) : State := (poke (regs2 0 vx 1 vy) 0x300 [row]).setI 0x300

/-- A core halted by a return on an empty stack (V26). -/
def faulted : State :=
  let r : FaultRecord := ⟨.stackUnderflow, 0x200, some 0x00EE, 0⟩
  { State.reset with mem := [(0x201, 0xEE)], run := .halted, fault := some r }

/-! ### Well-formedness refuses -/

theorem test_ill_sys_cls : (Instr.sys 0x3E0).wellFormed = false := by decide
theorem test_ill_sys_ret : (Instr.sys 0x0EE).wellFormed = false := by decide
theorem test_ill_undef8_low : ∀ fn : Fin 8, (Instr.undef8 1 2 (BitVec.ofFin (fn.castLE (by decide)))).wellFormed = false := by
  decide
theorem test_ill_undef8_shl : (Instr.undef8 1 2 0xE).wellFormed = false := by decide
theorem test_ill_undefE : (Instr.undefE 1 0x9E).wellFormed = false ∧ (Instr.undefE 1 0xA1).wellFormed = false := by decide
theorem test_ill_undefF : ([0x07, 0x0A, 0x15, 0x18, 0x1E, 0x29, 0x33, 0x55, 0x65] : List Byte).all
    (fun fn => !(Instr.undefF 1 fn).wellFormed) = true := by decide
theorem test_ill_strict_group0 : (Instr.cls 3).wellFormedWith true = false ∧ (Instr.ret 1).wellFormedWith true = false := by
  decide
theorem test_ill_strict_groups59 :
    (Instr.seReg 1 2 1).wellFormedWith true = false ∧ (Instr.sneReg 1 2 0xF).wellFormedWith true = false := by decide
theorem test_well_formed_unexamined : (Instr.cls 3).wellFormed = true ∧ (Instr.sneReg 1 2 0xF).wellFormed = true := by decide

/-! ### Decoding: every row of the map, a word written out from it -/

theorem test_decode_sys : decodeWord false 0b0000_0010_0011_0100 = .ok (.sys 0x234) := by decide
theorem test_decode_cls : decodeWord false 0b0000_0000_1110_0000 = .ok (.cls 0) := by decide
theorem test_decode_ret : decodeWord false 0b0000_1111_1110_1110 = .ok (.ret 0xF) := by decide
theorem test_decode_sys_near_cls : decodeWord false 0b0000_0000_1110_0001 = .ok (.sys 0x0E1) := by decide
theorem test_decode_jp : decodeWord false 0b0001_1111_1111_1110 = .ok (.jp 0xFFE) := by decide
theorem test_decode_call : decodeWord false 0b0010_0011_0000_0000 = .ok (.call 0x300) := by decide
theorem test_decode_se_imm : decodeWord false 0b0011_1010_0101_1100 = .ok (.seImm 0xA 0x5C) := by decide
theorem test_decode_sne_imm : decodeWord false 0b0100_0011_0001_0000 = .ok (.sneImm 3 0x10) := by decide
theorem test_decode_se_reg : decodeWord false 0b0101_0001_0010_0000 = .ok (.seReg 1 2 0) := by decide
theorem test_decode_ld_imm : decodeWord false 0b0110_1010_0100_0010 = .ok (.ldImm 0xA 0x42) := by decide
theorem test_decode_add_imm : decodeWord false 0b0111_1111_1111_0101 = .ok (.addImm 0xF 0xF5) := by decide
theorem test_decode_ld_reg : decodeWord false 0b1000_0001_0101_0000 = .ok (.ldReg 1 5) := by decide
theorem test_decode_or : decodeWord false 0b1000_0001_0010_0001 = .ok (.orReg 1 2) := by decide
theorem test_decode_and : decodeWord false 0b1000_0001_0010_0010 = .ok (.andReg 1 2) := by decide
theorem test_decode_xor : decodeWord false 0b1000_0001_0010_0011 = .ok (.xorReg 1 2) := by decide
theorem test_decode_add_reg : decodeWord false 0b1000_0001_0010_0100 = .ok (.addReg 1 2) := by decide
theorem test_decode_sub : decodeWord false 0b1000_0001_0010_0101 = .ok (.subReg 1 2) := by decide
theorem test_decode_shr : decodeWord false 0b1000_0100_0101_0110 = .ok (.shr 4 5) := by decide
theorem test_decode_subn : decodeWord false 0b1000_0001_0010_0111 = .ok (.subnReg 1 2) := by decide
theorem test_decode_shl : decodeWord false 0b1000_0100_0000_1110 = .ok (.shl 4 0) := by decide
theorem test_decode_sne_reg : decodeWord false 0b1001_0001_0010_1111 = .ok (.sneReg 1 2 0xF) := by decide
theorem test_decode_ld_i : decodeWord false 0b1010_0010_1111_0000 = .ok (.ldI 0x2F0) := by decide
theorem test_decode_jp_v0 : decodeWord false 0b1011_1111_1111_1111 = .ok (.jpV0 0xFFF) := by decide
theorem test_decode_rnd : decodeWord false 0b1100_0011_0000_1111 = .ok (.rnd 3 0x0F) := by decide
theorem test_decode_drw : decodeWord false 0b1101_0001_0000_0101 = .ok (.drw 1 0 5) := by decide
theorem test_decode_skp : decodeWord false 0b1110_0001_1001_1110 = .ok (.skp 1) := by decide
theorem test_decode_sknp : decodeWord false 0b1110_0100_1010_0001 = .ok (.sknp 4) := by decide
theorem test_decode_ld_from_delay : decodeWord false 0b1111_0011_0000_0111 = .ok (.ldFromDelay 3) := by decide
theorem test_decode_ld_key : decodeWord false 0b1111_0100_0000_1010 = .ok (.ldKey 4) := by decide
theorem test_decode_ld_delay : decodeWord false 0b1111_0010_0001_0101 = .ok (.ldDelay 2) := by decide
theorem test_decode_ld_sound : decodeWord false 0b1111_0010_0001_1000 = .ok (.ldSound 2) := by decide
theorem test_decode_add_i : decodeWord false 0b1111_0001_0001_1110 = .ok (.addI 1) := by decide
theorem test_decode_ld_font : decodeWord false 0b1111_0010_0010_1001 = .ok (.ldFont 2) := by decide
theorem test_decode_bcd : decodeWord false 0b1111_1010_0011_0011 = .ok (.ldBcd 0xA) := by decide
theorem test_decode_store : decodeWord false 0b1111_0001_0101_0101 = .ok (.storeRegs 1) := by decide
theorem test_decode_load : decodeWord false 0b1111_0001_0110_0101 = .ok (.loadRegs 1) := by decide
theorem test_decode_undef8 : decodeWord false 0b1000_0000_0000_1111 = .ok (.undef8 0 0 0xF) := by decide
theorem test_decode_undefE : decodeWord false 0b1110_0001_1010_0010 = .ok (.undefE 1 0xA2) := by decide
theorem test_decode_undefF : decodeWord false 0b1111_0001_0000_0000 = .ok (.undefF 1 0x00) := by decide

/-- V5, V6, V9, V10 under STRICT_DECODE; V3 stays. -/
theorem test_strict_refuses : decodeWord true 0x0FEE = .error (.refusedWord 0x0FEE) ∧
    decodeWord true 0x912F = .error (.refusedWord 0x912F) ∧ decodeWord true 0x00E0 = .ok (.cls 0) := by decide

/-- R44: the byte at the lower address is the high byte; the rest of the bytes comes back. -/
theorem test_decode_byte_order : decode false [0x12, 0x28, 0x99] = .ok (.jp 0x228, [0x99]) := by decide
theorem test_decode_too_few : decode false [0x12] = .error .tooFewBytes := by decide
theorem test_table_word : decodeTableWord 16 0xA2F0 = some (.ldI 0x2F0) := by decide

/-- Lines of P1, P2, P3 and P6, and a shift with a y field (R71). -/
theorem test_assembly : assemblyText (.ldImm 0 0x05) = some "LD V0, 0x05" ∧ assemblyText (.jp 0x204) = some "JP 0x204" ∧
    assemblyText (.ldI 0x300) = some "LD I, 0x300" ∧ assemblyText (.loadRegs 2) = some "LD V2, [I]" ∧
    assemblyText (.cls 0) = some "CLS" ∧ assemblyText (.ldKey 3) = some "LD V3, K" ∧
    assemblyText (.shr 8 0) = some "SHR V8" ∧ assemblyText (.shr 8 0xF) = some "SHR V8, VF" ∧
    assemblyText (.undefE 0 0) = none := by decide

/-! ### Control flow -/

/-- V39. -/
theorem test_sys : (after 0x0123 State.reset).map (fun t => (t.pc, t.v, t.i, t.sp)) =
    some (0x202, State.reset.v, 0, 0) := by decide
/-- V11, V14 and V16: the undefined words retire. -/
theorem test_undef8 : (after 0x8128 State.reset).map (fun t => (t.pc, t.reply)) = some (0x202, some (.retired false)) := by
  decide
theorem test_undefE : (after 0xE1A2 State.reset).map (fun t => (t.pc, t.reply)) = some (0x202, some (.retired false)) := by
  decide
theorem test_undefF : (after 0xF100 State.reset).map (fun t => (t.pc, t.reply)) = some (0x202, some (.retired false)) := by
  decide
/-- V21. -/
theorem test_jp : (after 0x1228 State.reset).map (·.pc) = some 0x228 := by decide
/-- V24. -/
theorem test_call : (after 0x2300 State.reset).map (fun t => (t.stack.get 0, t.sp, t.pc)) = some (0x202, 1, 0x300) := by
  decide
/-- V27. -/
theorem test_call_overflow : (after 0x2300 { State.reset with sp := 16 }).map (fun t => (t.fault, t.pc, t.sp, t.run)) =
    some (some ⟨.stackOverflow, 0x200, some 0x2300, 16⟩, 0x200, 16, .halted) := by decide
/-- V25. -/
theorem test_ret : (after 0x00EE { State.reset with pc := 0x300, sp := 1, stack := State.reset.stack.set 0 0x202 }).map
    (fun t => (t.sp, t.pc)) = some (0, 0x202) := by decide
/-- V26. -/
theorem test_ret_underflow : (after 0x00EE State.reset).map (fun t => (t.fault, t.pc, t.run)) =
    some (some ⟨.stackUnderflow, 0x200, some 0x00EE, 0⟩, 0x200, .halted) := by decide
/-- V28, V29. -/
theorem test_se_imm : (after 0x3310 (State.reset.setReg 3 0x10)).map (·.pc) = some 0x204 ∧
    (after 0x3310 (State.reset.setReg 3 0x11)).map (·.pc) = some 0x202 := by decide
/-- V30, V31. -/
theorem test_sne_imm : (after 0x4310 (State.reset.setReg 3 0x10)).map (·.pc) = some 0x202 ∧
    (after 0x4310 (State.reset.setReg 3 0x11)).map (·.pc) = some 0x204 := by decide
/-- V32. -/
theorem test_se_reg : (after 0x5120 (regs2 1 0x7F 2 0x7F)).map (·.pc) = some 0x204 := by decide
/-- V34, V35. -/
theorem test_sne_reg : (after 0x9120 (regs2 1 0x7F 2 0x80)).map (·.pc) = some 0x204 ∧
    (after 0x9110 (regs2 1 0x7F 2 0x80)).map (·.pc) = some 0x202 := by decide
/-- V36, V37: the indexed jump is not reduced to 12 bits. -/
theorem test_jp_v0 : (after 0xB300 (State.reset.setReg 0 0x04)).map (·.pc) = some 0x304 ∧
    (after 0xBFFF (State.reset.setReg 0 0xFF)).map (·.pc) = some 0x10FE := by decide

/-! ### Register loads and the ALU -/

/-- S1. -/
theorem test_ld_imm : (after 0x6FFF State.reset).map (fun t => (t.reg 0xF, t.pc)) = some (0xFF, 0x202) := by decide
/-- V40. -/
theorem test_add_imm : (after 0x7203 (regs2 2 0xFE 0xF 0x55)).map (fun t => (t.reg 2, t.reg 0xF)) = some (0x01, 0x55) := by
  decide
/-- V42. -/
theorem test_ld_reg : (after 0x8150 (State.reset.setReg 5 0x9C)).map (·.reg 1) = some 0x9C := by decide
/-- V43. -/
theorem test_or : (after 0x8121 ((regs2 1 0x0F 2 0x30).setReg 0xF 0x77)).map (fun t => (t.reg 1, t.reg 0xF)) =
    some (0x3F, 0x77) := by decide
/-- V44. -/
theorem test_and : (after 0x8122 (regs2 1 0x3C 2 0x0F)).map (·.reg 1) = some 0x0C := by decide
/-- V45. -/
theorem test_xor : (after 0x8123 (regs2 1 0x3C 2 0x0F)).map (·.reg 1) = some 0x33 := by decide
/-- V47. -/
theorem test_add_carry : (after 0x8124 (regs2 1 0xFF 2 0xFF)).map (fun t => (t.reg 1, t.reg 0xF)) = some (0xFE, 1) := by
  decide
/-- V49, V50: VF as an operand. -/
theorem test_add_vf : (after 0x8F14 (regs2 0xF 0xFF 1 0x01)).map (·.reg 0xF) = some 1 ∧
    (after 0x81F4 (regs2 0xF 0xFF 1 0x01)).map (fun t => (t.reg 1, t.reg 0xF)) = some (0, 1) := by decide
/-- S3, V51. -/
theorem test_sub : (after 0x8125 (regs2 1 0x03 2 0x05)).map (fun t => (t.reg 1, t.reg 0xF)) = some (0xFE, 0) ∧
    (after 0x8125 (regs2 1 0x42 2 0x42)).map (fun t => (t.reg 1, t.reg 0xF)) = some (0x00, 1) := by decide
/-- V53. -/
theorem test_sub_vf : (after 0x8F15 (regs2 0xF 0x05 1 0x01)).map (·.reg 0xF) = some 1 := by decide
/-- V58. -/
theorem test_shr : (after 0x8456 (regs2 4 0x04 5 0xFF)).map (fun t => (t.reg 4, t.reg 0xF)) = some (0x02, 0) := by decide
/-- V60. -/
theorem test_shr_vf : (after 0x8F06 (State.reset.setReg 0xF 0x02)).map (·.reg 0xF) = some 0 := by decide
/-- V54, V55. -/
theorem test_subn : (after 0x8127 (regs2 1 0x03 2 0x05)).map (fun t => (t.reg 1, t.reg 0xF)) = some (0x02, 1) ∧
    (after 0x8127 (regs2 1 0x05 2 0x03)).map (fun t => (t.reg 1, t.reg 0xF)) = some (0xFE, 0) := by decide
/-- V61, V63. -/
theorem test_shl : (after 0x840E (State.reset.setReg 4 0x81)).map (fun t => (t.reg 4, t.reg 0xF)) = some (0x02, 1) ∧
    (after 0x8F0E (State.reset.setReg 0xF 0x80)).map (·.reg 0xF) = some 1 := by decide
/-- V64: the host names the random byte. -/
theorem test_rnd : (host (.cycle 0xB6) (poke State.reset 0x200 [0xC3, 0x0F])).map (·.reg 3) = some 0x06 := by decide
/-- V65: with the byte left free the mask still holds. -/
theorem test_rnd_free : ∃ t, exec (.rnd 3 0x00) (State.reset.setReg 3 0x99) = .next t ∧ t.reg 3 = 0x00 ∧ t.draws = 1 :=
  ⟨_, rfl, by simp [State.reg], rfl⟩

/-! ### Index and memory -/

/-- V67. -/
theorem test_ld_i : (after 0xA2F0 State.reset).map (·.i) = some 0x2F0 := by decide
/-- V69, V70. -/
theorem test_add_i : (after 0xF11E ((State.reset.setReg 1 0x01).setI 0x0FFF)).map (·.i) = some 0x1000 ∧
    (after 0xF11E ((State.reset.setReg 1 0x02).setI 0xFFFF)).map (·.i) = some 0x0001 := by decide
/-- V72. -/
theorem test_ld_font : (after 0xFA29 (State.reset.setReg 0xA 0x1A)).map (·.i) = some 0x082 := by decide
/-- S9. -/
theorem test_bcd : (after 0xF233 ((State.reset.setReg 2 157).setI 0x300)).map
    (fun t => (t.read 0x300, t.read 0x301, t.read 0x302, t.i)) = some (1, 5, 7, 0x300) := by decide
/-- V77. -/
theorem test_bcd_fault : (after 0xF033 ((State.reset.setReg 0 0xFF).setI 0xFFE)).map
    (fun t => (t.fault, t.pc, t.read 0xFFE, t.read 0xFFF)) =
    some (some ⟨.memoryBounds, 0x200, some 0xF033, 0x1000⟩, 0x200, 0, 0) := by decide
/-- V81: V2 is not stored. -/
theorem test_store : (after 0xF155 ((((regs2 0 0x11 1 0x22).setReg 2 0x33)).setI 0x300)).map
    (fun t => (t.read 0x300, t.read 0x301, t.read 0x302, t.i)) = some (0x11, 0x22, 0, 0x300) := by decide
/-- V80. -/
theorem test_store_fault : (after 0xFF55 ((State.reset.setReg 0 0x11).setI 0xFF1)).map
    (fun t => (t.fault, t.read 0xFF1)) = some (some ⟨.memoryBounds, 0x200, some 0xFF55, 0x1000⟩, 0) := by decide
/-- V82: V3 keeps its value. -/
theorem test_load : (after 0xF265 ((poke (State.reset.setReg 3 0x77) 0x300 [1, 2, 3, 4]).setI 0x300)).map
    (fun t => (t.reg 0, t.reg 1, t.reg 2, t.reg 3, t.i)) = some (1, 2, 3, 0x77, 0x300) := by decide
/-- V84. -/
theorem test_load_last_byte : (after 0xF065 ((poke State.reset 0xFFF [0x5A]).setI 0xFFF)).map
    (fun t => (t.reg 0, t.run)) = some (0x5A, .running) := by decide
/-- Writing what an unlisted address reads as removes the cell; V85: the font can be overwritten. -/
theorem test_canonical_form : (State.reset.mem.write 0x300 5).write 0x300 0 = [] ∧
    State.reset.mem.write 0x050 0 = [(0x050, 0)] ∧ (State.reset.mem.write 0x050 0).wf = true := by decide

/-! ### The display -/

/-- V97. -/
theorem test_cls : (after 0x00E0 { State.reset.setReg 0xF 7 with display := Display.blank.setCell 3 4 true }).map
    (fun t => (lit t 4, t.reg 0xF, t.reply)) = some ([], 7, some (.retired true)) := by decide
/-- S5. -/
theorem test_drw_clips : (after 0xD011 (sprite 0xFF 60 0)).map (fun t => (lit t 0, t.reg 0xF, t.reply)) =
    some ([60, 61, 62, 63], 0, some (.retired true)) := by decide
/-- V91. -/
theorem test_drw_collides : (after 0xD011 { sprite 0xC0 0 0 with display := Display.blank.setCell 0 0 true }).map
    (fun t => (lit t 0, t.reg 0xF)) = some ([1], 1) := by decide
/-- V93: VF is the coordinate, then the flag. -/
theorem test_drw_vf : (after 0xDF01 ((sprite 0x80 0 0).setReg 0xF 0x05)).map (fun t => (lit t 0, t.reg 0xF)) =
    some ([5], 0) := by decide
/-- V94, V96: no row reads nothing; the rows that clipping drops are range-checked. -/
theorem test_drw_range : (after 0xD010 ((State.reset.setReg 0xF 1).setI 0x1000)).map (fun t => (t.reg 0xF, t.run)) =
    some (0, .running) ∧
    (after 0xD013 ((State.reset.setReg 1 31).setI 0xFFE)).map (·.fault) =
    some (some ⟨.memoryBounds, 0x200, some 0xD013, 0x1000⟩) := by decide

/-! ### Keys and timers -/

/-- V98, V100. -/
theorem test_skp : (after 0xE19E { State.reset.setReg 1 0x05 with key := some 5 }).map (·.pc) = some 0x204 ∧
    (after 0xE19E { State.reset.setReg 1 0x15 with key := some 5 }).map (·.pc) = some 0x202 := by decide
/-- V101, V102. -/
theorem test_sknp : (after 0xE1A1 (State.reset.setReg 1 0x05)).map (·.pc) = some 0x204 ∧
    (after 0xE1A1 { State.reset.setReg 1 0x05 with key := some 5 }).map (·.pc) = some 0x202 := by decide
/-- V104. -/
theorem test_ld_from_delay : (after 0xF307 { State.reset with dt := 0x3C, st := 0x11 }).map (·.reg 3) = some 0x3C := by decide
/-- V105. -/
theorem test_ld_key : (after 0xF40A { State.reset with key := some 7 }).map (fun t => (t.reg 4, t.pc, t.key)) =
    some (0x07, 0x202, some 7) := by decide
/-- V106. -/
theorem test_ld_key_waits : (after 0xF40A (State.reset.setReg 4 0x33)).map (fun t => (t.reg 4, t.pc)) =
    some (0x33, 0x200) := by decide
/-- V107. -/
theorem test_ld_delay : (after 0xF215 (State.reset.setReg 2 0x3C)).map (fun t => (t.dt, t.st)) = some (0x3C, 0) := by decide
/-- V108. -/
theorem test_ld_sound : (after 0xF218 (State.reset.setReg 2 0x05)).map (fun t => (t.st, t.dt, t.soundOn)) =
    some (0x05, 0, true) := by decide

/-! ### The cycle and the host -/

/-- V112. -/
theorem test_fetch_last_word : (host (.cycle 0) { poke State.reset 0xFFE [0x60, 0x07] with pc := 0xFFE }).map
    (fun t => (t.reg 0, t.pc)) = some (7, 0x1000) := by decide
/-- V114, V115. -/
theorem test_fetch_bounds : (host (.cycle 0) { State.reset with pc := 0xFFF }).map (·.fault) =
    some (some ⟨.fetchBounds, 0xFFF, none, 0x1000⟩) ∧
    (host (.cycle 0) { State.reset with pc := 0x10FE }).map (·.fault) =
    some (some ⟨.fetchBounds, 0x10FE, none, 0x10FE⟩) := by decide
/-- V5 under STRICT_DECODE. -/
theorem test_strict_cycle : (match cycleWith true none (poke State.reset 0x200 [0x03, 0xE0]) with
    | .refused r => some r
    | _ => none) = some (.refusedWord 0x200 0x03E0) := by decide
/-- V109, V110. -/
theorem test_timer_tick : (host .timerTick { State.reset with dt := 2, st := 1 }).map (fun t => (t.dt, t.st, t.soundOn)) =
    some (1, 0, false) ∧ (host .timerTick State.reset).map (fun t => (t.dt, t.st)) = some (0, 0) := by decide
/-- V111: the second part; nothing moves but the reply. -/
theorem test_halted : (host (.cycle 0) { State.reset with run := .halted }).map (fun t => (t.pc, t.reply)) =
    some (0x200, some .halted) := by decide
/-- P6: SetKey. -/
theorem test_set_key : (host (.setKey (some 0xA)) State.reset).map (·.key) = some (some 0xA) := by decide
/-- V116. -/
theorem test_read_fault : (host .readFault faulted).map (·.reply) =
    some (some (.faultStatus .halted (some ⟨.stackUnderflow, 0x200, some 0x00EE, 0⟩))) := by decide
/-- V120 with the ROM of P5: the image, and a halted core runs again. -/
theorem test_power_on : (host (.powerOn [0x22, 0x00]) { State.reset with run := .halted, dt := 3, pc := 0x300 }).map
    (fun t => (t.mem, t.pc, t.run, t.dt, t.reply)) = some ([(0x200, 0x22)], 0x200, .running, 0, some .ok) := by decide +kernel
/-- Another FONT and MEM_INIT (R6): the font's last byte, the bytes around it, and the byte after a ROM of one byte. -/
def otherParameters : Parameters where
  strictDecode := true
  font := Vector.replicate 80 0x3C
  memInit := fun a => if a = 0x0A0 then 0x11 else 0xFF

theorem test_power_on_parameters :
    [0x04F, 0x050, 0x09F, 0x0A0, 0x200, 0x201, 0xFFF].map (powerOnMemory otherParameters [0x22]).read =
    [0xFF, 0x3C, 0x3C, 0x11, 0x22, 0xFF, 0xFF] := by
  simp only [List.map_cons, List.map_nil, read_powerOnMemory, show (0xFFF : Nat) ≤ Config.lastAddress by decide,
    show (0x04F : Nat) ≤ Config.lastAddress by decide, show (0x050 : Nat) ≤ Config.lastAddress by decide,
    show (0x09F : Nat) ≤ Config.lastAddress by decide, show (0x0A0 : Nat) ≤ Config.lastAddress by decide,
    show (0x200 : Nat) ≤ Config.lastAddress by decide, show (0x201 : Nat) ≤ Config.lastAddress by decide]
  decide

/-- V118. -/
theorem test_rom_too_large (rom : List Byte) (h : rom.length = 3585) : host (.powerOn rom) { State.reset with dt := 3 } =
    some { State.reset with dt := 3, reply := some .romTooLarge } := by
  simp only [host, step, stepWith, transact, State.powerOn, h]
  rfl

theorem test_reset_memory_wf : State.reset.mem.wf = true := by decide

/-! ### Witnesses: states and operands that meet the hypotheses of each statement -/

/-- A running core with the word `w` at PC, one entry on the stack. -/
def ready (w : Nat) : State :=
  { poke State.reset 0x200 (tableWordBytes 16 w) with sp := 1, stack := State.reset.stack.set 0 0x202 }

/-- The power-on state with the key `k` latched and `b` in V1. -/
def pressed (k : Nibble) (b : Byte) : State := { State.reset.setReg 1 b with key := some k }

theorem witness_DecodeInvertsEncode : (Instr.cls 3).wellFormedWith false = true ∧
    (Instr.undef8 0 0xF 0xF).wellFormedWith true = true ∧ (Instr.sys 0xFFF).wellFormedWith true = true := by decide

theorem witness_EncodeInvertsDecode : decodeWord true 0x00EE = .ok (.ret 0) ∧ decodeWord false 0x5FFF = .ok (.seReg 0xF 0xF 0xF) := by
  decide

/-- 00E0 lies in the rows of SYS and CLS. -/
theorem witness_DecodeTakesTheMostSpecificRow : decodeWord false 0x00E0 = .ok (.cls 0) ∧
    (⟨0x0000, 0xF000⟩ : OpcodeRow) ∈ opcodeTable ∧ OpcodeRow.accepts ⟨0x0000, 0xF000⟩ 0x00E0 = true := by decide

theorem witness_StrictDecodeRefusesTheLiteralWords : groupOf 0x01E0 = 0x0 ∧ groupOf 0x5001 = 0x5 ∧ groupOf 0x900F = 0x9 ∧
    IsLiteralWord 0x01E0 ∧ IsLiteralWord 0x5001 ∧ IsLiteralWord 0x900F ∧ ¬ IsLiteralWord 0x00E0 ∧ ¬ IsLiteralWord 0x9000 ∧
    (ready 0x01E0).run = .running ∧ (ready 0x01E0).fetchWord = some 0x01E0 := by
  unfold IsLiteralWord; decide

theorem witness_NoOpWordsAreExactlyTheListed : IsNoOpWord 0x00E1 ∧ IsNoOpWord 0x8008 ∧ IsNoOpWord 0xE09F ∧ IsNoOpWord 0xFF66 ∧
    ¬ IsNoOpWord 0x00EE ∧ ¬ IsNoOpWord 0x800E ∧ isNoOp (.undefF 0xF 0x66) = true := by
  refine ⟨?_, ?_, ?_, ?_, ?_, ?_, rfl⟩ <;> unfold IsNoOpWord <;> decide

/-- Two instructions that are written alike. -/
theorem witness_AssemblyNamesOneOperation : assembly (.cls 0) = some ("CLS", []) ∧ assembly (.cls 3) = some ("CLS", []) := by
  decide

/-- At the last address a word can be fetched from, with nothing pending; and with a Cycle and more pending. -/
theorem witness_StepRunsTheDecodedInstruction :
    (∃ s t : State, s.run = .running ∧ s.pc.toNat = 0xFFE ∧ s.pending = [] ∧
      decode Config.strictDecode [s.read s.pc.toNat, s.read (s.pc.toNat + 1)] = .ok (.ldImm 0 7, []) ∧
      exec (.ldImm 0 7) { s with pc := s.pc + 2, rnd := none, pending := [] } = .next t ∧ t.run = .running) ∧
    ∃ (s t : State) (f : FaultRecord), s.run = .running ∧ s.pc.toNat ≤ 0xFFE ∧ s.pending = [.cycle 0x5A, .timerTick] ∧
      decode Config.strictDecode [s.read s.pc.toNat, s.read (s.pc.toNat + 1)] = .ok (.ret 0, []) ∧
      exec (.ret 0) { s with pc := s.pc + 2, rnd := some 0x5A, pending := [.timerTick] } = .next t ∧
      t.run = .halted ∧ t.fault = some f :=
  ⟨⟨{ poke State.reset 0xFFE [0x60, 0x07] with pc := 0xFFE }, _, by decide, by decide, by decide, by decide, rfl, by decide⟩,
    { poke State.reset 0x200 [0x00, 0xEE] with pending := [.cycle 0x5A, .timerTick] }, _,
      ⟨.stackUnderflow, 0x200, some 0x00EE, 0⟩, by decide, by decide, by decide, by decide, rfl, by decide, by decide⟩

theorem witness_HaltedCycleChangesNothing : faulted.run = .halted := by decide

theorem witness_FetchReadsTwoBytesOrFaults : ({ State.reset with pc := 0xFFE } : State).pc.toNat ≤ 0xFFE ∧
    ({ State.reset with pc := 0xFFF } : State).run = .running ∧ 0xFFE < ({ State.reset with pc := 0xFFF } : State).pc.toNat := by
  decide

/-- One for each fault, the last address out of range by one; and an instruction without one. -/
theorem witness_FaultsAreExactlyTheListedAndPrecise :
    ({ State.reset with pc := 0xFFF } : State).fetchWord = none ∧
    (ready 0x2300).fetchWord = some 0x2300 ∧ decodeWord true 0x2300 = .ok (.call 0x300) ∧
    faultOf (.call 0x300) { ready 0x2300 with sp := 16 } = some (.stackOverflow, 16) ∧
    faultOf (.call 0x300) { ready 0x2300 with sp := 15 } = none ∧
    faultOf (.ret 0) State.reset = some (.stackUnderflow, 0) ∧ faultOf (.ret 0) (ready 0x00EE) = none ∧
    faultOf (.drw 0 0 1) (State.reset.setI 0x1000) = some (.memoryBounds, 0x1000) ∧
    faultOf (.ldBcd 0) (State.reset.setI 0xFFE) = some (.memoryBounds, 0x1000) ∧
    faultOf (.storeRegs 0xF) (State.reset.setI 0xFF1) = some (.memoryBounds, 0x1000) ∧
    faultOf (.loadRegs 0xF) (State.reset.setI 0x1234) = some (.memoryBounds, 0x1234) := by decide

/-- Either side of the equivalence: a draw retires with the output set, an unfetchable word does not. -/
theorem witness_FrameReadyIsForClearAndDraw :
    (∃ t, cycleWith true none (ready 0xD015) = .next t ∧ t.reply = some (.retired true)) ∧
    ∃ t, cycleWith true none { State.reset with pc := 0x1000 } = .next t ∧ t.reply ≠ some (.retired true) :=
  ⟨⟨_, rfl, by decide⟩, _, rfl, by decide⟩

/-- A word of each kind of control flow, and one of none. -/
theorem witness_ControlFlowEffects :
    ∀ p ∈ [(0x1FFF, Instr.jp 0xFFF), (0x2300, .call 0x300), (0xBFFF, .jpV0 0xFFF), (0x00EE, .ret 0), (0x3000, .seImm 0 0),
      (0xE19E, .skp 1), (0xF20A, .ldKey 2), (0xD000, .drw 0 0 0)],
    (ready p.1).run = .running ∧ (ready p.1).fetchWord = some (BitVec.ofNat 16 p.1) ∧
    decodeWord true (BitVec.ofNat 16 p.1) = .ok p.2 ∧ faultOf p.2 (ready p.1) = none ∧
    ∃ t, cycleWith true none (ready p.1) = .next t := by
  simp only [List.forall_mem_cons, List.not_mem_nil]
  exact ⟨⟨rfl, rfl, rfl, rfl, _, rfl⟩, ⟨rfl, rfl, rfl, rfl, _, rfl⟩, ⟨rfl, rfl, rfl, rfl, _, rfl⟩,
    ⟨rfl, rfl, rfl, rfl, _, rfl⟩, ⟨rfl, rfl, rfl, rfl, _, rfl⟩, ⟨rfl, rfl, rfl, rfl, _, rfl⟩,
    ⟨rfl, rfl, rfl, rfl, _, rfl⟩, ⟨rfl, rfl, rfl, rfl, _, rfl⟩, nofun⟩

theorem witness_OperationsWriteOnlyTheirTableRow :
    (faultOf (.addReg 0xF 0) State.reset = none ∧ ∃ t, exec (.addReg 0xF 0) State.reset = .next t) ∧
    (faultOf (.ret 0) State.reset ≠ none ∧ ∃ t, exec (.ret 0) State.reset = .next t) :=
  ⟨⟨rfl, _, rfl⟩, by decide, _, rfl⟩

/-- Two states that agree on V1 and V2 and on nothing else that a program set. -/
theorem witness_OperationsReadOnlyTheirTableRow : ∃ t t' : State,
    (∀ p, readsOf (.addReg 1 2) (regs2 1 5 2 6) p →
      p.same (regs2 1 5 2 6) { (regs2 1 5 2 6).setReg 3 9 with i := 7, pc := 0x300, dt := 4 }) ∧
    exec (.addReg 1 2) (regs2 1 5 2 6) = .next t ∧
    exec (.addReg 1 2) { (regs2 1 5 2 6).setReg 3 9 with i := 7, pc := 0x300, dt := 4 } = .next t' := by
  refine ⟨_, _, fun p hp => ?_, rfl, rfl⟩
  have : p = .reg 1 ∨ p = .reg 2 := by simpa [readsOf, These] using hp
  rcases this with rfl | rfl <;> rfl

/-- The faulting branch: two states with an empty stack at the same PC that differ elsewhere. -/
theorem witness_OperationsReadOnlyTheirTableRow_fault : ∃ t t' : State,
    (∀ p, readsOf (.ret 0) State.reset p → p.same State.reset (regs2 3 9 4 8)) ∧
    faultOf (.ret 0) State.reset ≠ none ∧ exec (.ret 0) State.reset = .next t ∧ exec (.ret 0) (regs2 3 9 4 8) = .next t' := by
  refine ⟨_, _, fun p hp => ?_, by decide, rfl, rfl⟩
  rcases hp with rfl | rfl | ⟨k, hk, _⟩
  · rfl
  · rfl
  · exact absurd hk (Nat.succ_ne_zero _)

/-- The last byte each of them stores. -/
theorem witness_MemoryIsWrittenOnlyByTwoOperations :
    (∃ t, exec (.ldBcd 2) ((State.reset.setReg 2 157).setI 0xFFD) = .next t ∧
      t.read 0xFFF ≠ ((State.reset.setReg 2 157).setI 0xFFD).read 0xFFF) ∧
    ∃ t, exec (.storeRegs 0xF) ((State.reset.setReg 0xF 9).setI 0xFF0) = .next t ∧
      t.read 0xFFF ≠ ((State.reset.setReg 0xF 9).setI 0xFF0).read 0xFFF :=
  ⟨⟨_, rfl, by decide⟩, _, rfl, by decide⟩

theorem witness_DisplayIsWrittenOnlyByClearAndDraw :
    (∃ t, exec (.cls 0) { State.reset with display := Display.blank.setCell 63 31 true } = .next t ∧
      t.cell 63 31 ≠ ({ State.reset with display := Display.blank.setCell 63 31 true } : State).cell 63 31) ∧
    ∃ t, exec (.drw 0 1 1) (sprite 0x80 63 31) = .next t ∧ t.cell 63 31 ≠ (sprite 0x80 63 31).cell 63 31 :=
  ⟨⟨_, rfl, by decide⟩, _, rfl, by decide⟩

theorem witness_StackIsTouchedOnlyByCallAndReturn :
    (∃ t, exec (.call 0x300) State.reset = .next t ∧ t.stack ≠ State.reset.stack) ∧
    ∃ t, exec (.ret 0) (ready 0) = .next t ∧ t.sp ≠ (ready 0).sp :=
  ⟨⟨_, rfl, by decide⟩, _, rfl, by decide⟩

theorem witness_SpecialRegistersHaveTheirOwnWriters :
    (∃ t, exec (.ldI 0xFFF) State.reset = .next t ∧ t.i ≠ State.reset.i) ∧
    (∃ t, exec (.ldDelay 1) (State.reset.setReg 1 3) = .next t ∧ t.dt ≠ (State.reset.setReg 1 3).dt) ∧
    ∃ t, exec (.ldSound 1) (State.reset.setReg 1 3) = .next t ∧ t.st ≠ (State.reset.setReg 1 3).st :=
  ⟨⟨_, rfl, by decide⟩, ⟨_, rfl, by decide⟩, _, rfl, by decide⟩

/-- The six flag writers on VF itself, and another operation that changes VF. -/
theorem witness_FlagWritersAreExactlySix :
    (∀ i ∈ [Instr.addReg 0xF 1, .subReg 0xF 1, .shr 0xF 0, .subnReg 0xF 1, .shl 0xF 0, .drw 0xF 0xF 1],
      faultOf i (regs2 0xF 0xFF 1 1) = none ∧ ∃ t, exec i (regs2 0xF 0xFF 1 1) = .next t) ∧
    ∃ t, exec (.ldImm 0xF 3) State.reset = .next t ∧ faultOf (.ldImm 0xF 3) State.reset = none ∧
      t.reg vF ≠ State.reset.reg vF := by
  refine ⟨?_, _, rfl, rfl, by decide⟩
  simp only [List.forall_mem_cons, List.not_mem_nil]
  exact ⟨⟨rfl, _, rfl⟩, ⟨rfl, _, rfl⟩, ⟨rfl, _, rfl⟩, ⟨rfl, _, rfl⟩, ⟨rfl, _, rfl⟩, ⟨rfl, _, rfl⟩, nofun⟩

/-- A draw that clears a cell, for the collision clause, and one that clears none. -/
theorem witness_FlagWritersAreExactlySix_draw :
    (∃ t, exec (.drw 0 1 1) { sprite 0xC0 0 0 with display := Display.blank.setCell 0 0 true } = .next t ∧
      ({ sprite 0xC0 0 0 with display := Display.blank.setCell 0 0 true } : State).cell 0 0 = true ∧ t.cell 0 0 = false) ∧
    ∃ t, exec (.drw 0 1 0) State.reset = .next t ∧ ¬ ∃ cx cy, State.reset.cell cx cy = true ∧ t.cell cx cy = false := by
  refine ⟨⟨_, rfl, by decide, by decide⟩, _, rfl, fun ⟨cx, cy, h, _⟩ => ?_⟩
  simp [State.cell, State.reset, Display.cell] at h

theorem witness_CallPushesTheReturnAddress : (15 : Fin 16).val = ({ State.reset with sp := 15 } : State).sp.val ∧
    (0 : Fin 16).val = State.reset.sp.val ∧ ({ State.reset with sp := 16 } : State).sp.val = 16 := by decide

theorem witness_ReturnPopsTheProgramCounter : (0 : Fin 16).val + 1 = (ready 0).sp.val ∧
    (15 : Fin 16).val + 1 = ({ State.reset with sp := 16 } : State).sp.val ∧ State.reset.sp.val = 0 := by decide

theorem witness_ReturnUndoesCall : ∃ t, ({ State.reset with sp := 15 } : State).sp.val < 16 ∧
    exec (.call 0x300) { State.reset with sp := 15 } = .next t := ⟨_, by decide, rfl⟩

/-- A latched key that is Vx, and the three ways it is not: another key, a byte above 0x0F, no key. -/
theorem witness_KeySkipsCompareTheWholeByte :
    (∃ k : Nibble, (pressed 0xF 0x0F).key = some k ∧ k.toNat = ((pressed 0xF 0x0F).reg 1).toNat) ∧
    (¬ ∃ k : Nibble, (pressed 0x6 0x05).key = some k ∧ k.toNat = ((pressed 0x6 0x05).reg 1).toNat) ∧
    (¬ ∃ k : Nibble, (pressed 0x5 0x15).key = some k ∧ k.toNat = ((pressed 0x5 0x15).reg 1).toNat) ∧
    ¬ ∃ k : Nibble, State.reset.key = some k ∧ k.toNat = (State.reset.reg 1).toNat := by decide

theorem witness_AddLeavesSumThenCarry : (0xE : Reg) ≠ vF := by decide

theorem witness_SubtractLeavesDifferenceThenNoBorrow : (0 : Reg) ≠ vF := by decide

theorem witness_ShiftsLeaveTheBitShiftedOut : (4 : Reg) ≠ vF := by decide

theorem witness_RandomByteIsMasked : ({ State.reset with rnd := some 0xB6 } : State).rnd = some 0xB6 := by decide

theorem witness_BcdStoresThreeDigits : (State.reset.setI 0xFFD).i.toNat + 2 ≤ 0xFFF ∧
    0xFFF < (State.reset.setI 0xFFE).i.toNat + 2 := by decide

theorem witness_RegistersAreStoredFromTheIndex : (State.reset.setI 0xFF0).i.toNat + (0xF : Reg).toNat ≤ 0xFFF ∧
    0xFFF < (State.reset.setI 0xFF1).i.toNat + (0xF : Reg).toNat := by decide

theorem witness_RegistersAreLoadedFromTheIndex : (State.reset.setI 0xFFF).i.toNat + (0 : Reg).toNat ≤ 0xFFF ∧
    0xFFF < (State.reset.setI 0x1000).i.toNat + (0 : Reg).toNat := by decide

/-- The registers hold something else when they are loaded back. -/
theorem witness_LoadUndoesStore : ∃ t u w : State, faultOf (.storeRegs 1) ((regs2 0 0x11 1 0x22).setI 0x300) = none ∧
    exec (.storeRegs 1) ((regs2 0 0x11 1 0x22).setI 0x300) = .next t ∧
    u = { t with v := u.v, pc := u.pc } ∧ u.v ≠ t.v ∧ exec (.loadRegs 1) u = .next w ∧ (1 : Reg) ≤ 1 :=
  ⟨_, { (poke State.reset 0x300 [0x11, 0x22]).setI 0x300 with pc := 0x208 }, _, by decide, rfl, by decide, by decide, rfl,
    by decide⟩

theorem witness_FetchSeesEarlierStores : ∃ t u : State, faultOf (.storeRegs 1) ((regs2 0 0x60 1 0x22).setI 0x300) = none ∧
    exec (.storeRegs 1) ((regs2 0 0x60 1 0x22).setI 0x300) = .next t ∧ (1 : Reg).toNat = (0 : Reg).toNat + 1 ∧
    (1 : Reg) ≤ 1 ∧ u.mem = t.mem ∧ u.pc.toNat = ((regs2 0 0x60 1 0x22).setI 0x300).i.toNat + (0 : Reg).toNat :=
  ⟨_, { poke State.reset 0x300 [0x60, 0x22] with pc := 0x300 }, by decide, rfl, by decide, by decide, by decide, by decide⟩

/-- The last row in range, and with no row any I; the first out of range; a cell the sprite sets and one it does not, at the
right edge. -/
theorem witness_DrawFlipsTheSpritePicture :
    ((State.reset.setI 0xFFF).i.toNat + (1 : Nibble).toNat - 1 ≤ 0xFFF) ∧ (0 : Nibble) = 0 ∧
    ((1 : Nibble) ≠ 0 ∧ 0xFFF < (State.reset.setI 0x1000).i.toNat + (1 : Nibble).toNat - 1) ∧
    (sprite 0x80 63 0).spriteSets 0 1 1 63 0 ∧ ¬ (sprite 0x80 63 0).spriteSets 0 1 1 62 0 := by
  unfold State.spriteSets; decide

/-- A cell of the sprite set before the draw, and a sprite that meets none. -/
theorem witness_DrawFlipsTheSpritePicture_collision :
    (∃ cx cy, ({ sprite 0x80 63 31 with display := Display.blank.setCell 63 31 true } : State).spriteSets 0 1 1 cx cy ∧
      ({ sprite 0x80 63 31 with display := Display.blank.setCell 63 31 true } : State).cell cx cy = true) ∧
    ¬ ∃ cx cy, State.reset.spriteSets 0 1 1 cx cy ∧ State.reset.cell cx cy = true := by
  refine ⟨⟨63, 31, ?_, by decide⟩, fun ⟨cx, cy, _, h⟩ => ?_⟩
  · unfold State.spriteSets; decide
  · simp [State.cell, State.reset, Display.cell] at h

/-- A sprite with a visible cell, unset before; and a sprite that sets none. -/
theorem witness_DrawingTwiceRestoresTheDisplay :
    (∃ t, (0 : Reg) ≠ vF ∧ (1 : Reg) ≠ vF ∧ faultOf (.drw 0 1 1) (sprite 0x80 63 31) = none ∧
      exec (.drw 0 1 1) (sprite 0x80 63 31) = .next t ∧
      ∃ cx cy, (sprite 0x80 63 31).spriteSets 0 1 1 cx cy ∧ (sprite 0x80 63 31).cell cx cy = false) ∧
    ∃ t, faultOf (.drw 0 1 0) State.reset = none ∧ exec (.drw 0 1 0) State.reset = .next t ∧
      ¬ ∃ cx cy, State.reset.spriteSets 0 1 0 cx cy ∧ State.reset.cell cx cy = false := by
  refine ⟨⟨_, by decide, by decide, by decide, rfl, 63, 31, ?_, by decide⟩, _, by decide, rfl, fun ⟨cx, cy, h, _⟩ => ?_⟩
  · unfold State.spriteSets; decide
  · have h2 := h.2.2.1; have h3 := h.2.2.2.1
    simp at h2 h3
    omega

theorem witness_KeyWaitRewindsOrLoads : State.reset.key = none ∧ ({ State.reset with key := some 0xF } : State).key = some 0xF := by
  decide

/-- Both timers at their ends, running and halted. -/
theorem witness_TimerTickStopsAtZero :
    ({ State.reset with pending := [.timerTick, .readSound], st := 0xFF } : State).pending = .timerTick :: [.readSound] ∧
    ({ faulted with pending := [.timerTick] } : State).pending = .timerTick :: [] := by decide

theorem witness_SetKeyOverwritesTheLatch :
    ({ State.reset with pending := [.setKey none], key := some 3 } : State).pending = .setKey none :: [] ∧
    ({ faulted with pending := [.setKey (some 0xF)] } : State).pending = .setKey (some 0xF) :: [] := by decide

theorem witness_ReadsReportTheState : ∀ q ∈ [Transaction.readDisplay, .readTimers, .readSound, .readFault],
    ({ faulted with pending := [q, .timerTick] } : State).pending = q :: [.timerTick] := fun _ _ => rfl

/-- The largest image and the empty one, from a halted core; the hypotheses leave the parameters free. -/
theorem witness_PowerOnBuildsTheState :
    (∃ rom : List Byte, rom.length = 3584 ∧ rom.length ≤ 3584 ∧
      ({ faulted with pending := [.powerOn rom] } : State).pending = .powerOn rom :: []) ∧
    ([] : List Byte).length ≤ 3584 :=
  ⟨⟨List.replicate 3584 0x22, List.length_replicate, le_of_eq List.length_replicate, rfl⟩, by decide⟩

/-- The smallest image that is refused; the largest that is accepted is in `witness_PowerOnBuildsTheState`. -/
theorem witness_RomSizeIsChecked : ∃ rom : List Byte, 3584 < rom.length ∧ rom.length = 3585 ∧
    ({ State.reset with pending := [.powerOn rom] } : State).pending = .powerOn rom :: [] :=
  ⟨List.replicate 3585 0x22, lt_of_lt_of_eq (by decide) List.length_replicate.symm, List.length_replicate, rfl⟩

/-- A halted state that meets the invariant, and its step. -/
theorem witness_EveryStepKeepsTheInvariant : ∃ t, faulted.Inv ∧ step faulted = .next t := by
  refine ⟨_, ⟨by decide, by decide, by decide, by decide, fun r h => ?_⟩, rfl⟩
  cases h
  exact ⟨rfl, by decide, ⟨0x00EE, by decide, by decide, by decide⟩, rfl, rfl⟩

/-- A running one, with a return address on the stack. -/
theorem witness_EveryStepKeepsTheInvariant_running : ∃ t, (ready 0x00EE).Inv ∧ step (ready 0x00EE) = .next t :=
  ⟨_, ⟨by decide, by decide, by decide, by decide, fun _ h => nomatch h⟩, rfl⟩

/-- A state and the same with another value in an entry above the one in use. -/
theorem witness_StaleStackEntriesAreUnobservable : ∃ t,
    SameButStaleEntries (ready 0x00EE) { ready 0x00EE with stack := (ready 0x00EE).stack.set 1 0x0FFF } ∧
    step (ready 0x00EE) = .next t :=
  ⟨_, ⟨by decide, by decide⟩, rfl⟩

end Sys2Proof.Tests
end

/-! ## What one instruction can do: its fault, or its effect (O15) -/

namespace Sys2Proof.Machine

variable {s t : State}

/-! ### Fault or no fault -/

/-- An instruction whose fault condition holds raises that fault, and does nothing else (R124, R126). -/
theorem exec_of_faultOf_some {i : Instr} {k : FaultKind} {n : Nat} (h : faultOf i s = some (k, n)) :
    exec i s = .next (s.raiseFault k i n) := by
  cases i with
  | call nnn =>
    obtain ⟨hs, -⟩ | ⟨hs, e⟩ := execCall_cases s nnn
    · simp [faultOf, hs.ne] at h
    · rw [faultOf, if_pos hs] at h
      cases h
      exact e
  | ret u =>
    obtain ⟨j, hs, -⟩ | ⟨hs, e⟩ := execRet_cases s u
    · simp [faultOf, ← hs] at h
    · rw [faultOf, if_pos hs] at h
      cases h
      exact e
  | drw x y m =>
    obtain ⟨hs, -⟩ | ⟨hs, e⟩ := execDrw_cases s x y m
    · simp [faultOf, hs] at h
    · rw [faultOf, hs] at h
      cases h
      exact e
  | ldBcd x =>
    obtain ⟨hs, -⟩ | ⟨hs, e⟩ := execLdBcd_cases s x
    · simp [faultOf, hs] at h
    · rw [faultOf, hs] at h
      cases h
      exact e
  | storeRegs x =>
    obtain ⟨hs, -⟩ | ⟨hs, e⟩ := execStoreRegs_cases s x
    · simp [faultOf, hs] at h
    · rw [faultOf, hs] at h
      cases h
      exact e
  | loadRegs x =>
    obtain ⟨hs, -⟩ | ⟨hs, e⟩ := execLoadRegs_cases s x
    · simp [faultOf, hs] at h
    · rw [faultOf, hs] at h
      cases h
      exact e
  | _ => cases h

/-- Every instruction answers a next state: a fault is one too (R126). -/
theorem exec_total (i : Instr) (s : State) : ∃ t, exec i s = .next t := by
  cases hf : faultOf i s with
  | some f => exact ⟨_, exec_of_faultOf_some hf⟩
  | none =>
    cases i with
    | call nnn => obtain ⟨_, e⟩ | ⟨-, e⟩ := execCall_cases s nnn <;> exact ⟨_, e⟩
    | ret u => obtain ⟨_, -, e⟩ | ⟨-, e⟩ := execRet_cases s u <;> exact ⟨_, e⟩
    | drw x y n => obtain ⟨-, e⟩ | ⟨-, e⟩ := execDrw_cases s x y n <;> exact ⟨_, e⟩
    | ldBcd x => obtain ⟨-, e⟩ | ⟨-, e⟩ := execLdBcd_cases s x <;> exact ⟨_, e⟩
    | storeRegs x => obtain ⟨-, e⟩ | ⟨-, e⟩ := execStoreRegs_cases s x <;> exact ⟨_, e⟩
    | loadRegs x => obtain ⟨-, e⟩ | ⟨-, e⟩ := execLoadRegs_cases s x <;> exact ⟨_, e⟩
    | ldKey x => obtain ⟨-, e⟩ | ⟨_, -, e⟩ := execLdKey_cases s x <;> exact ⟨_, e⟩
    | _ => exact ⟨_, rfl⟩

/-- All that an instruction can do: raise the fault it has, or answer a next state without one. -/
theorem exec_cases {i : Instr} (h : exec i s = .next t) :
    faultOf i s = none ∨ ∃ k n, faultOf i s = some (k, n) ∧ t = s.raiseFault k i n := by
  cases hf : faultOf i s with
  | none => exact .inl rfl
  | some f => exact .inr ⟨f.1, f.2, rfl, Host.Outcome.next.inj (h.symm.trans (exec_of_faultOf_some hf))⟩

/-- A stack entry after one is written. -/
theorem stackEntry_set (v : Vector Word 16) (k j : Fin 16) (a : Word) :
    (v.set k.val a k.isLt).get j = if k = j then a else v.get j := by
  simp only [Fin.ext_iff]
  exact Vector.getElem_set k.isLt j.isLt

/-! ### The effect of the meanings that can fault, where they do not -/

/-- The stack entry `k` takes the return address, and SP counts it (R82). -/
theorem exec_call_next {nnn : Addr12} (hf : faultOf (.call nnn) s = none) (h : exec (.call nnn) s = .next t) :
    ∃ k : Fin 16, k.val = s.sp.val ∧
      t = { s with stack := s.stack.set k.val s.pc, sp := k.succ, pc := addressOperand nnn } := by
  obtain ⟨hs, e⟩ | ⟨hs, -⟩ := execCall_cases s nnn
  · exact ⟨⟨s.sp.val, hs⟩, rfl, Host.Outcome.next.inj (h.symm.trans e)⟩
  · simp [faultOf, hs] at hf

theorem exec_ret_next {u : Nibble} (hf : faultOf (.ret u) s = none) (h : exec (.ret u) s = .next t) :
    ∃ k : Fin 16, k.val + 1 = s.sp.val ∧ t = { s with sp := k.castSucc, pc := s.stack.get k } := by
  obtain ⟨k, hs, e⟩ | ⟨hs, -⟩ := execRet_cases s u
  · exact ⟨k, hs, Host.Outcome.next.inj (h.symm.trans e)⟩
  · simp [faultOf, hs] at hf

theorem exec_drw_next {x y : Reg} {n : Nibble} (hf : faultOf (.drw x y n) s = none)
    (h : exec (.drw x y n) s = .next t) :
    t = (s.setDisplay (s.drawing x y n).1).setFlag (s.drawing x y n).2 := by
  obtain ⟨-, e⟩ | ⟨hs, -⟩ := execDrw_cases s x y n
  · exact Host.Outcome.next.inj (h.symm.trans e)
  · simp [faultOf, hs] at hf

theorem exec_ldBcd_next {x : Reg} (hf : faultOf (.ldBcd x) s = none) (h : exec (.ldBcd x) s = .next t) :
    inRange s.i.toNat 3 = true ∧ t = { s with mem := s.mem.writeBytes s.i.toNat (bcdDigits (s.reg x)) } := by
  obtain ⟨hs, e⟩ | ⟨hs, -⟩ := execLdBcd_cases s x
  · exact ⟨hs, Host.Outcome.next.inj (h.symm.trans e)⟩
  · simp [faultOf, hs] at hf

theorem exec_storeRegs_next {x : Reg} (hf : faultOf (.storeRegs x) s = none)
    (h : exec (.storeRegs x) s = .next t) :
    inRange s.i.toNat (x.toNat + 1) = true ∧ t = { s with mem := s.mem.writeBytes s.i.toNat (s.regsUpTo x) } := by
  obtain ⟨hs, e⟩ | ⟨hs, -⟩ := execStoreRegs_cases s x
  · exact ⟨hs, Host.Outcome.next.inj (h.symm.trans e)⟩
  · simp [faultOf, hs] at hf

theorem exec_loadRegs_next {x : Reg} (hf : faultOf (.loadRegs x) s = none) (h : exec (.loadRegs x) s = .next t) :
    t = s.setRegs ((List.range (x.toNat + 1)).map fun k => s.read (s.i.toNat + k)) := by
  obtain ⟨-, e⟩ | ⟨hs, -⟩ := execLoadRegs_cases s x
  · exact Host.Outcome.next.inj (h.symm.trans e)
  · simp [faultOf, hs] at hf

/-- All that the key-wait can do (R121). -/
theorem exec_ldKey_next {x : Reg} (h : exec (.ldKey x) s = .next t) :
    (s.key = none ∧ t = s.setPc (s.pc - 2)) ∨ ∃ k, s.key = some k ∧ t = s.setReg x (keyByte k) := by
  obtain ⟨hk, e⟩ | ⟨k, hk, e⟩ := execLdKey_cases s x
  · exact .inl ⟨hk, Host.Outcome.next.inj (h.symm.trans e)⟩
  · exact .inr ⟨k, hk, Host.Outcome.next.inj (h.symm.trans e)⟩

/-! ### The frame of every instruction (O15) -/

/-- An update of the state writes what its two halves write. -/
theorem Frame.trans_mono {u : State} {v w x : Part → Prop} (h : Frame s t v) (k : Frame t u w)
    (hv : ∀ p, v p → x p) (hw : ∀ p, w p → x p) : Frame s u x :=
  (h.mono hv).trans (k.mono hw)

theorem State.countDraw_frame (s : State) : Frame s s.countDraw (These [.draws]) := by
  intro p hp
  cases p with
  | draws => exact absurd (List.mem_singleton.2 rfl) hp
  | _ => rfl

theorem State.setFlag_frame (s : State) (c : Bool) : Frame s (s.setFlag c) (These [.reg vF]) :=
  s.setReg_frame vF (flagByte c)

/-- An instruction that takes no fault changes only what its row lets it write. -/
theorem exec_frame {i : Instr} (hf : faultOf i s = none) (h : exec i s = .next t) : Frame s t (writesOf i s) := by
  cases i with
  | sys | undef8 | undefE | undefF => cases h; exact Frame.refl s _
  | ldImm | addImm | ldReg | orReg | andReg | xorReg | ldFromDelay => cases h; exact s.setReg_frame _ _
  | addReg | subReg | shr | subnReg | shl => cases h; exact s.setRegThenFlag_frame _ _ _
  | jp | jpV0 => cases h; exact s.setPc_frame _
  | seImm | sneImm | seReg | sneReg | skp | sknp => cases h; exact s.skipIf_frame _
  | ldI | addI | ldFont => cases h; exact s.setI_frame _
  | cls => cases h; exact s.setDisplay_frame _
  | rnd x kk =>
    cases h
    exact (s.setReg_frame x _).trans_mono (State.countDraw_frame _) (by simp +contextual [writesOf, These])
      (by simp +contextual [writesOf, These])
  | ldDelay =>
    cases h
    intro p hp
    cases p with
    | dt => exact absurd (List.mem_singleton.2 rfl) hp
    | _ => rfl
  | ldSound =>
    cases h
    intro p hp
    cases p with
    | st => exact absurd (List.mem_singleton.2 rfl) hp
    | _ => rfl
  | ldKey x =>
    obtain ⟨hk, rfl⟩ | ⟨k, hk, rfl⟩ := exec_ldKey_next h
    · simpa only [writesOf, hk, if_pos] using s.setPc_frame _
    · simpa only [writesOf, hk, reduceCtorEq, if_false] using s.setReg_frame x _
  | call =>
    obtain ⟨k, hk, rfl⟩ := exec_call_next hf h
    intro p hp
    cases p with
    | pc => exact absurd (.inl rfl) hp
    | sp => exact absurd (.inr (.inl rfl)) hp
    | entry j =>
      have hj : k.val ≠ j.val := fun e => hp (.inr (.inr ⟨j, e ▸ hk, rfl⟩))
      exact Vector.getElem_set_ne k.isLt j.isLt hj
    | _ => rfl
  | ret =>
    obtain ⟨k, -, rfl⟩ := exec_ret_next hf h
    intro p hp
    cases p with
    | pc | sp => exact absurd (by simp [writesOf, These]) hp
    | _ => rfl
  | drw x y n =>
    obtain rfl := exec_drw_next hf h
    exact (s.setDisplay_frame _).trans_mono (State.setFlag_frame _ _) (fun _ => .inr)
      fun _ hp => .inl (List.mem_singleton.1 hp)
  | ldBcd x =>
    obtain ⟨-, rfl⟩ := exec_ldBcd_next hf h
    exact s.store_frame _ (bcdDigits (s.reg x))
  | storeRegs x =>
    obtain ⟨-, rfl⟩ := exec_storeRegs_next hf h
    simpa only [writesOf, s.regsUpTo_length x] using s.store_frame s.i.toNat (s.regsUpTo x)
  | loadRegs x =>
    obtain rfl := exec_loadRegs_next hf h
    exact s.setRegs_frame _ x (by simp)

/-- Settles O15: the fault case is the frame of fault entry, the other the frame of each instruction. -/
theorem operationsWriteOnlyTheirTableRow : Obligations.OperationsWriteOnlyTheirTableRow := by
  intro i s t h
  obtain hf | ⟨k, n, hf, rfl⟩ := exec_cases h
  · rw [if_pos hf]
    exact exec_frame hf h
  · rw [hf, if_neg (Option.some_ne_none _)]
    exact s.takeFault_frame _ _ _ _

end Sys2Proof.Machine

/-! ## Who writes a part of the state (O18, O19, O20) -/

namespace Sys2Proof.Machine

variable {s t : State}

/-- What an instruction changes, whether it faults or not, is in its row or written by fault entry. -/
theorem exec_writes {i : Instr} {p : Part} (h : exec i s = .next t) (hp : ¬ These [.pc, .run, .fault] p)
    (hc : ¬ p.same s t) : writesOf i s p := by
  have ho := operationsWriteOnlyTheirTableRow i s t h
  by_contra hw
  split at ho
  · exact hc (ho p hw)
  · exact hc (ho p hp)

/-- The key-wait writes PC or its register, whichever the latch says. -/
theorem writesOf_ldKey {x : Reg} {p : Part} (h : writesOf (.ldKey x) s p) : p = .pc ∨ p = .reg x := by
  cases hk : s.key <;> simp_all [writesOf, These]

theorem cls_or_drw_of_writesOf_cell {i : Instr} {cx : Fin 64} {cy : Fin 32} (h : writesOf i s (.cell cx cy)) :
    (∃ u, i = .cls u) ∨ ∃ x y n, i = .drw x y n := by
  cases i with
  | cls u => exact .inl ⟨u, rfl⟩
  | drw x y n => exact .inr ⟨x, y, n, rfl⟩
  | ldKey x => simpa using writesOf_ldKey h
  | _ => simp [writesOf, These, TheseBytes] at h

theorem call_of_writesOf_entry {i : Instr} {k : Fin 16} (h : writesOf i s (.entry k)) : ∃ nnn, i = .call nnn := by
  cases i with
  | call nnn => exact ⟨nnn, rfl⟩
  | ldKey x => simpa using writesOf_ldKey h
  | _ => simp [writesOf, These, TheseBytes] at h

theorem call_or_ret_of_writesOf_sp {i : Instr} (h : writesOf i s .sp) : (∃ nnn, i = .call nnn) ∨ ∃ u, i = .ret u := by
  cases i with
  | call nnn => exact .inl ⟨nnn, rfl⟩
  | ret u => exact .inr ⟨u, rfl⟩
  | ldKey x => simpa using writesOf_ldKey h
  | _ => simp [writesOf, These, TheseBytes] at h

theorem index_writer_of_writesOf_i {i : Instr} (h : writesOf i s .i) :
    (∃ nnn, i = .ldI nnn) ∨ (∃ x, i = .addI x) ∨ ∃ x, i = .ldFont x := by
  cases i with
  | ldI nnn => exact .inl ⟨nnn, rfl⟩
  | addI x => exact .inr (.inl ⟨x, rfl⟩)
  | ldFont x => exact .inr (.inr ⟨x, rfl⟩)
  | ldKey x => simpa using writesOf_ldKey h
  | _ => simp [writesOf, These, TheseBytes] at h

theorem ldDelay_of_writesOf_dt {i : Instr} (h : writesOf i s .dt) : ∃ x, i = .ldDelay x := by
  cases i with
  | ldDelay x => exact ⟨x, rfl⟩
  | ldKey x => simpa using writesOf_ldKey h
  | _ => simp [writesOf, These, TheseBytes] at h

theorem ldSound_of_writesOf_st {i : Instr} (h : writesOf i s .st) : ∃ x, i = .ldSound x := by
  cases i with
  | ldSound x => exact ⟨x, rfl⟩
  | ldKey x => simpa using writesOf_ldKey h
  | _ => simp [writesOf, These, TheseBytes] at h

/-- No row gives an instruction the key latch, the run state, the fault record, the random input, the pending transactions
or the reply. -/
theorem not_writesOf_host_part {i : Instr} {p : Part} (hp : These [.key, .run, .fault, .rnd, .pending, .reply] p) :
    ¬ writesOf i s p := by
  intro h
  simp only [These, List.mem_cons, List.not_mem_nil, or_false] at hp
  obtain rfl | rfl | rfl | rfl | rfl | rfl := hp
  all_goals
    cases i with
    | ldKey x => simpa using writesOf_ldKey h
    | _ => simp [writesOf, These, TheseBytes] at h

/-- Settles O18: a cell that changes is one the instruction's row lets it write. -/
theorem displayIsWrittenOnlyByClearAndDraw : Obligations.DisplayIsWrittenOnlyByClearAndDraw := by
  intro i s t cx cy h hc
  exact cls_or_drw_of_writesOf_cell (exec_writes h (by simp [These]) hc)

/-- Where the stack entries differ, one of them does. -/
theorem exists_entry_of_stack_ne (h : t.stack ≠ s.stack) : ∃ k, ¬ (Part.entry k).same s t := by
  by_contra hall
  simp only [not_exists, not_not] at hall
  exact h (Vector.ext fun k hk => hall ⟨k, hk⟩)

/-- Settles O19: an entry that changes, or SP, is one the instruction's row lets it write. -/
theorem stackIsTouchedOnlyByCallAndReturn : Obligations.StackIsTouchedOnlyByCallAndReturn := by
  intro i s t h hc
  obtain hs | hsp := hc
  · obtain ⟨k, hk⟩ := exists_entry_of_stack_ne hs
    exact .inl (call_of_writesOf_entry (exec_writes h (by simp [These]) hk))
  · exact call_or_ret_of_writesOf_sp (exec_writes h (by simp [These]) hsp)

/-- No instruction changes the latch or the host's side of the state, whether it faults or not. -/
theorem exec_keeps_host_part {i : Instr} {p : Part} (h : exec i s = .next t)
    (hp : These [.key, .rnd, .pending, .reply] p) : p.same s t := by
  by_contra hc
  simp only [These, List.mem_cons, List.not_mem_nil, or_false] at hp
  refine not_writesOf_host_part ?_ (exec_writes h ?_ hc)
  all_goals obtain rfl | rfl | rfl | rfl := hp <;> simp [These]

/-- Settles O20: the special registers by their rows, the latch and the host's fields because they stand in no row. -/
theorem specialRegistersHaveTheirOwnWriters : Obligations.SpecialRegistersHaveTheirOwnWriters := by
  intro i s t h
  exact ⟨fun hc => index_writer_of_writesOf_i (exec_writes h (by simp [These]) hc),
    fun hc => ldDelay_of_writesOf_dt (exec_writes h (by simp [These]) hc),
    fun hc => ldSound_of_writesOf_st (exec_writes h (by simp [These]) hc),
    exec_keeps_host_part (p := .key) h (by simp [These]), exec_keeps_host_part (p := .pending) h (by simp [These]),
    exec_keeps_host_part (p := .reply) h (by simp [These])⟩

end Sys2Proof.Machine

/-! ## What an instruction reads (O16) -/

namespace Sys2Proof.Machine

variable {s s' t t' : State}

/-! ### Agreement on parts -/

/-- The two states hold the same in every part that `w` names. -/
def Agree (s t : State) (w : Part → Prop) : Prop := ∀ p, w p → p.same s t

@[simp] theorem agree_nil : Agree s t (These []) := fun _ hp => absurd hp List.not_mem_nil

@[simp] theorem agree_cons {p : Part} {ps : List Part} :
    Agree s t (These (p :: ps)) ↔ p.same s t ∧ Agree s t (These ps) := by
  simp [Agree, These]

theorem agree_setReg {x : Reg} {b b' : Byte} (h : b' = b) : Agree (s.setReg x b) (s'.setReg x b') (These [.reg x]) := by
  simp [Part.same, h]

theorem agree_setRegThenFlag {x : Reg} {b b' : Byte} {c c' : Bool} (hb : b' = b) (hc : c' = c) :
    Agree (s.setRegThenFlag x b c) (s'.setRegThenFlag x b' c') (These [.reg x, .reg vF]) := by
  simp [Part.same, State.reg_setRegThenFlag, hb, hc]

theorem agree_setPc {a a' : Word} (h : a' = a) : Agree (s.setPc a) (s'.setPc a') (These [.pc]) := by
  simp [Part.same, h]

theorem agree_setI {a a' : Word} (h : a' = a) : Agree (s.setI a) (s'.setI a') (These [.i]) := by
  simp [Part.same, h]

theorem agree_skipIf {c c' : Bool} (hp : s'.pc = s.pc) (hc : c' = c) :
    Agree (s.skipIf c) (s'.skipIf c') (These [.pc]) := by
  simp [Part.same, hp, hc]

theorem keyIs_congr (h : s'.key = s.key) (b : Byte) : s'.keyIs b = s.keyIs b := by
  simp only [State.keyIs, h]

theorem drawByte_congr (hr : s'.rnd = s.rnd) (hd : s'.draws = s.draws) : s'.drawByte = s.drawByte := by
  simp only [State.drawByte, hr, hd]

theorem indexedTarget_congr (h : s'.reg 0 = s.reg 0) (nnn : Addr12) : s'.indexedTarget nnn = s.indexedTarget nnn := by
  simp only [State.indexedTarget, h]

theorem regsUpTo_congr {x : Reg} (h : ∀ r ≤ x, s'.reg r = s.reg r) : s'.regsUpTo x = s.regsUpTo x := by
  refine List.ext_getElem? fun k => ?_
  by_cases hk : k ≤ x.toNat
  · have hr : BitVec.ofNat 4 k ≤ x := by simpa [BitVec.le_def, Nat.mod_eq_of_lt (hk.trans_lt x.isLt)] using hk
    have := s'.regsUpTo_getElem? x _ hr
    have := s.regsUpTo_getElem? x _ hr
    simp_all [Nat.mod_eq_of_lt (hk.trans_lt x.isLt)]
  · simp [s.regsUpTo_length, s'.regsUpTo_length, Nat.lt_of_not_le hk]

theorem readRange_congr {a n : Nat} (h : Agree s s' (TheseBytes a n)) :
    ((List.range n).map fun k => s'.read (a + k)) = (List.range n).map fun k => s.read (a + k) :=
  List.map_congr_left fun k hk => h (.byte (a + k)) ⟨k, List.mem_range.1 hk, rfl⟩

theorem drawing_congr {x y : Reg} {n : Nibble} (hi : s'.i = s.i) (hx : s'.reg x = s.reg x) (hy : s'.reg y = s.reg y)
    (hb : Agree s s' (TheseBytes s.i.toNat n.toNat)) (hd : s'.display = s.display) :
    s'.drawing x y n = s.drawing x y n := by
  simp only [State.drawing, hi, hx, hy, hd, readRange_congr hb]

/-- After a store of the same bytes at the same address the two states agree on the bytes stored. -/
theorem agree_store {a a' : Nat} {bs bs' : List Byte} (ha : a' = a) (hbs : bs' = bs) :
    Agree { s with mem := s.mem.writeBytes a bs } { s' with mem := s'.mem.writeBytes a' bs' }
      (TheseBytes a bs.length) := by
  subst ha hbs
  rintro _ ⟨k, hk, rfl⟩
  simp only [Part.same, State.read, Memory.read_writeBytes_inside _ _ _ _ hk]

theorem display_congr (h : ∀ cx cy, (Part.cell cx cy).same s s') : s'.display = s.display := Display.ext_cell h

/-! ### The read set of every instruction -/

/-- The fault of an instruction depends on its reads only. -/
theorem faultOf_congr {i : Instr} (hr : Agree s s' (readsOf i s)) : faultOf i s' = faultOf i s := by
  have sp (h : readsOf i s .sp) : s'.sp = s.sp := hr .sp h
  have index (h : readsOf i s .i) : s'.i = s.i := hr .i h
  cases i with
  | call | ret => simp only [faultOf, sp (by simp [readsOf, These])]
  | drw | ldBcd | storeRegs | loadRegs => simp only [faultOf, index (by simp [readsOf, These])]
  | _ => rfl

/-- An instruction that has a fault reads PC. -/
theorem readsOf_pc_of_faultOf {i : Instr} {f : FaultKind × Nat} (h : faultOf i s = some f) : readsOf i s .pc := by
  cases i with
  | call | ret | drw | ldBcd | storeRegs | loadRegs => simp [readsOf, These]
  | _ => cases h

/-- The same fault raised at the same PC leaves the same PC, run state and record. -/
theorem agree_raiseFault (hp : s'.pc = s.pc) (k : FaultKind) (i : Instr) (n : Nat) :
    Agree (s.raiseFault k i n) (s'.raiseFault k i n) (These [.pc, .run, .fault]) := by
  simp [Part.same, State.raiseFault_eq, hp]

/-- Without a fault, what an instruction writes depends on its reads only. -/
theorem exec_agree {i : Instr} (hr : Agree s s' (readsOf i s)) (hf : faultOf i s = none) (hf' : faultOf i s' = none)
    (h : exec i s = .next t) (h' : exec i s' = .next t') : Agree t t' (writesOf i s) := by
  cases i with
  | sys | undef8 | undefE | undefF => exact agree_nil
  | ldImm | addImm | ldReg | orReg | andReg | xorReg | ldFromDelay =>
    simp only [readsOf, agree_cons, Part.same] at hr
    cases h; cases h'
    exact agree_setReg (by simp [hr])
  | addReg | subReg | shr | subnReg | shl =>
    simp only [readsOf, agree_cons, Part.same] at hr
    cases h; cases h'
    exact agree_setRegThenFlag (by simp [hr]) (by simp [hr])
  | seImm | sneImm | seReg | sneReg =>
    simp only [readsOf, agree_cons, Part.same] at hr
    cases h; cases h'
    exact agree_skipIf hr.1 (by simp [hr])
  | skp | sknp =>
    simp only [readsOf, agree_cons, Part.same] at hr
    obtain ⟨hp, hk, hx, -⟩ := hr
    cases h; cases h'
    exact agree_skipIf hp (by simp [hx, keyIs_congr hk])
  | ldI | addI | ldFont =>
    simp only [readsOf, agree_cons, Part.same] at hr
    cases h; cases h'
    exact agree_setI (by simp [hr])
  | jp => cases h; cases h'; exact agree_setPc rfl
  | jpV0 nnn =>
    simp only [readsOf, agree_cons, Part.same] at hr
    cases h; cases h'
    exact agree_setPc (indexedTarget_congr hr.1 nnn)
  | ldDelay | ldSound =>
    simp only [readsOf, agree_cons, Part.same] at hr
    cases h; cases h'
    simp [writesOf, Part.same, hr]
  | rnd x kk =>
    simp only [readsOf, agree_cons, Part.same] at hr
    obtain ⟨hrnd, hdraws, -⟩ := hr
    cases h; cases h'
    have hx := agree_setReg (s := s) (s' := s') (x := x) (congrArg (· &&& kk) (drawByte_congr hrnd hdraws))
    simpa [writesOf, Part.same, hdraws, State.reg] using hx
  | cls =>
    cases h; cases h'
    rintro _ ⟨cx, cy, rfl⟩
    rfl
  | ldKey x =>
    simp only [readsOf, agree_cons, Part.same] at hr
    obtain ⟨hp, hk, -⟩ := hr
    obtain ⟨e, rfl⟩ | ⟨k, e, rfl⟩ := exec_ldKey_next h <;> obtain ⟨e', rfl⟩ | ⟨k', e', rfl⟩ := exec_ldKey_next h'
    · simpa only [writesOf, e, if_pos] using agree_setPc (by rw [hp])
    · simp [e, e'] at hk
    · simp [e, e'] at hk
    · obtain rfl : k' = k := by simpa [e, e'] using hk
      simpa only [writesOf, e, reduceCtorEq, if_false] using agree_setReg rfl
  | call nnn =>
    simp only [readsOf, agree_cons, Part.same] at hr
    obtain ⟨hp, hsp, -⟩ := hr
    obtain ⟨k, hk, rfl⟩ := exec_call_next hf h
    obtain ⟨k', hk', rfl⟩ := exec_call_next hf' h'
    obtain rfl : k' = k := Fin.ext (by rw [hk, hk', hsp])
    rintro _ (rfl | rfl | ⟨j, hj, rfl⟩)
    · rfl
    · rfl
    · obtain rfl : k' = j := Fin.ext (hk.trans hj.symm)
      simp only [Part.same, stackEntry_set, hp, if_pos]
  | ret u =>
    obtain ⟨k, hk, rfl⟩ := exec_ret_next hf h
    obtain ⟨k', hk', rfl⟩ := exec_ret_next hf' h'
    have hsp : s'.sp = s.sp := hr .sp (.inr (.inl rfl))
    have hentry : s'.stack.get k = s.stack.get k := hr (.entry k) (.inr (.inr ⟨k, hk, rfl⟩))
    obtain rfl : k' = k := Fin.ext (Nat.succ_injective (by rw [Nat.succ_eq_add_one, hk', hsp, ← hk]))
    simp [writesOf, Part.same, hentry]
  | drw x y n =>
    obtain rfl := exec_drw_next hf h
    obtain rfl := exec_drw_next hf' h'
    have hd : s'.drawing x y n = s.drawing x y n :=
      drawing_congr (hr .i (.inl (by simp))) (hr (.reg x) (.inl (by simp))) (hr (.reg y) (.inl (by simp)))
        (fun p hp => hr p (.inr (.inl hp))) (display_congr fun cx cy => hr _ (.inr (.inr ⟨cx, cy, rfl⟩)))
    rw [hd]
    rintro _ (rfl | ⟨cx, cy, rfl⟩)
    · simp [Part.same, State.setFlag_eq]
    · rfl
  | ldBcd x =>
    simp only [readsOf, agree_cons, Part.same] at hr
    obtain ⟨-, hi, hx, -⟩ := hr
    obtain ⟨-, rfl⟩ := exec_ldBcd_next hf h
    obtain ⟨-, rfl⟩ := exec_ldBcd_next hf' h'
    exact agree_store (congrArg BitVec.toNat hi) (congrArg bcdDigits hx)
  | storeRegs x =>
    have hi : s'.i = s.i := hr .i (.inr (.inl rfl))
    have hv : s'.regsUpTo x = s.regsUpTo x := regsUpTo_congr fun r hrx => hr (.reg r) (.inr (.inr ⟨r, hrx, rfl⟩))
    obtain ⟨-, rfl⟩ := exec_storeRegs_next hf h
    obtain ⟨-, rfl⟩ := exec_storeRegs_next hf' h'
    simpa only [writesOf, s.regsUpTo_length x] using agree_store (congrArg BitVec.toNat hi) hv
  | loadRegs x =>
    have hi : s'.i = s.i := hr .i (.inr (.inl rfl))
    have hb := readRange_congr fun p hp => hr p (.inr (.inr hp))
    obtain rfl := exec_loadRegs_next hf h
    obtain rfl := exec_loadRegs_next hf' h'
    rw [hi, hb]
    rintro _ ⟨r, hrx, rfl⟩
    have hk : r.toNat < x.toNat + 1 := Nat.lt_succ_of_le hrx
    simp [Part.same, State.reg_setRegs, hk]

/-- Settles O16: the fault is the same because its condition is read; then the effects of the two runs agree. -/
theorem operationsReadOnlyTheirTableRow : Obligations.OperationsReadOnlyTheirTableRow := by
  intro i s s' t t' hr h h'
  have hff : faultOf i s' = faultOf i s := faultOf_congr hr
  refine ⟨hff, ?_⟩
  obtain hf | ⟨k, n, hf, rfl⟩ := exec_cases h
  · rw [if_pos hf]
    exact exec_agree hr hf (hff.trans hf) h h'
  · obtain rfl := Host.Outcome.next.inj (h'.symm.trans (exec_of_faultOf_some (hff.trans hf)))
    rw [hf, if_neg (Option.some_ne_none _)]
    exact agree_raiseFault (hr .pc (readsOf_pc_of_faultOf hf)) k i n

end Sys2Proof.Machine

/-! ## The word a fault record holds: decoding loses no bit -/

namespace Sys2Proof

variable {strict : Bool} {w : Word} {g : Nibble} {i : Instr}

theorem formatA_of_group (h : groupOf w = g) : formatA g (fieldNNN w) = w := h ▸ formatA_fields w

theorem formatXK_of_group (h : groupOf w = g) : formatXK g (fieldX w) (fieldKK w) = w := h ▸ formatXK_fields w

theorem formatXYN_of_group (h : groupOf w = g) : formatXYN g (fieldX w) (fieldY w) (fieldN w) = w :=
  h ▸ formatXYN_fields w

theorem eq_of_literalReading_ok {u : Nibble} {j : Instr} (h : literalReading strict u w i = .ok j) : j = i := by
  obtain ⟨-, -, e⟩ | ⟨-, e⟩ := literalReading_cases strict u w i
  · cases e.symm.trans h
  · exact (Except.ok.inj (e.symm.trans h)).symm

theorem encode_of_decodeGroup0 (hg : groupOf w = 0x0) (h : decodeGroup0 strict w = .ok i) : encode i = w := by
  have hw := formatXK_of_group hg
  simp only [decodeGroup0] at h
  split_ifs at h with hcls hret
  · rw [eq_of_literalReading_ok h, encode, ← hcls, hw]
  · rw [eq_of_literalReading_ok h, encode, ← hret, hw]
  · cases h
    exact formatA_of_group hg

theorem encode_decodeGroup8 (hg : groupOf w = 0x8) : encode (decodeGroup8 w) = w := by
  have hw := formatXYN_of_group hg
  simp only [decodeGroup8]
  split_ifs with h h h h h h h h h
  all_goals simpa only [encode, h] using hw

theorem encode_decodeGroupE (hg : groupOf w = 0xE) : encode (decodeGroupE w) = w := by
  have hw := formatXK_of_group hg
  simp only [decodeGroupE]
  split_ifs with h h
  all_goals simpa only [encode, h] using hw

theorem encode_decodeGroupF (hg : groupOf w = 0xF) : encode (decodeGroupF w) = w := by
  have hw := formatXK_of_group hg
  simp only [decodeGroupF]
  split_ifs with h h h h h h h h h
  all_goals simpa only [encode, h] using hw

/-- An instruction that a word decodes to encodes to that word (R69): every format keeps every field. -/
theorem encode_of_decodeWord (h : decodeWord strict w = .ok i) : encode i = w := by
  obtain hg | hg | hg | hg | hg | hg | hg | hg | hg | hg | hg | hg | hg | hg | hg | hg := group_cases (groupOf w)
  · exact encode_of_decodeGroup0 hg (decodeWord_group0 strict w hg ▸ h)
  · cases (decodeWord_group1 strict w hg).symm.trans h; exact formatA_of_group hg
  · cases (decodeWord_group2 strict w hg).symm.trans h; exact formatA_of_group hg
  · cases (decodeWord_group3 strict w hg).symm.trans h; exact formatXK_of_group hg
  · cases (decodeWord_group4 strict w hg).symm.trans h; exact formatXK_of_group hg
  · rw [eq_of_literalReading_ok ((decodeWord_group5 strict w hg).symm.trans h)]; exact formatXYN_of_group hg
  · cases (decodeWord_group6 strict w hg).symm.trans h; exact formatXK_of_group hg
  · cases (decodeWord_group7 strict w hg).symm.trans h; exact formatXK_of_group hg
  · cases (decodeWord_group8 strict w hg).symm.trans h; exact encode_decodeGroup8 hg
  · rw [eq_of_literalReading_ok ((decodeWord_group9 strict w hg).symm.trans h)]; exact formatXYN_of_group hg
  · cases (decodeWord_groupA strict w hg).symm.trans h; exact formatA_of_group hg
  · cases (decodeWord_groupB strict w hg).symm.trans h; exact formatA_of_group hg
  · cases (decodeWord_groupC strict w hg).symm.trans h; exact formatXK_of_group hg
  · cases (decodeWord_groupD strict w hg).symm.trans h; exact formatXYN_of_group hg
  · cases (decodeWord_groupE strict w hg).symm.trans h; exact encode_decodeGroupE hg
  · cases (decodeWord_groupF strict w hg).symm.trans h; exact encode_decodeGroupF hg

end Sys2Proof

/-! ## The invariant of the machine (O52, O53) -/

namespace Sys2Proof.Machine

variable {s t : State} {i : Instr}

/-! ### Each clause, over one instruction that takes no fault -/

theorem exec_keeps_run (hf : faultOf i s = none) (h : exec i s = .next t) : t.run = s.run :=
  exec_frame hf h .run (not_writesOf_host_part (by simp [These]))

theorem exec_keeps_fault (hf : faultOf i s = none) (h : exec i s = .next t) : t.fault = s.fault :=
  exec_frame hf h .fault (not_writesOf_host_part (by simp [These]))

/-- Memory stays in canonical form: the two stores check their range, nothing else writes. -/
theorem exec_keeps_wf (hf : faultOf i s = none) (h : exec i s = .next t) (hm : s.mem.wf = true) : t.mem.wf = true := by
  cases i with
  | ldBcd x =>
    obtain ⟨hr, rfl⟩ := exec_ldBcd_next hf h
    exact Memory.wf_writeBytes hm hr
  | storeRegs x =>
    obtain ⟨hr, rfl⟩ := exec_storeRegs_next hf h
    exact Memory.wf_writeBytes hm (by rwa [s.regsUpTo_length x])
  | call => obtain ⟨k, -, rfl⟩ := exec_call_next hf h; exact hm
  | ret => obtain ⟨k, -, rfl⟩ := exec_ret_next hf h; exact hm
  | drw => obtain rfl := exec_drw_next hf h; exact hm
  | loadRegs => obtain rfl := exec_loadRegs_next hf h; exact hm
  | ldKey => obtain ⟨-, rfl⟩ | ⟨k, -, rfl⟩ := exec_ldKey_next h <;> exact hm
  | seImm | sneImm | seReg | sneReg | skp | sknp => cases h; rwa [State.skipIf_mem]
  | _ => cases h; exact hm

theorem addressOperand_toNat_lt (nnn : Addr12) : (addressOperand nnn).toNat < 0x1000 := by
  have := nnn.isLt
  simp only [addressOperand, BitVec.toNat_setWidth]
  omega

theorem indexedTarget_toNat_le (s : State) (nnn : Addr12) : (s.indexedTarget nnn).toNat ≤ 0x10FE := by
  have := nnn.isLt
  have := (s.reg 0).isLt
  simp only [State.indexedTarget, BitVec.toNat_ofNat]
  omega

theorem skipIf_pc_le {c : Bool} (h : s.pc.toNat ≤ 0x1000) : (s.skipIf c).pc.toNat ≤ 0x10FE := by
  cases c
  · exact h.trans (by decide)
  · have hskip : (s.skipIf true).pc = s.pc + 2 := rfl
    bv_omega

/-- From a post-fetch PC, the furthest an instruction takes PC is the indexed jump (R24, R87). -/
theorem exec_pc_le (hf : faultOf i s = none) (h : exec i s = .next t) (hlo : 2 ≤ s.pc.toNat)
    (hhi : s.pc.toNat ≤ 0x1000) (hs : ∀ k, (s.stack.get k).toNat ≤ 0x1000) : t.pc.toNat ≤ 0x10FE := by
  by_cases hw : writesOf i s .pc
  · cases i with
    | jp nnn => cases h; exact (addressOperand_toNat_lt nnn).le.trans (by decide)
    | jpV0 nnn => cases h; exact indexedTarget_toNat_le s nnn
    | seImm | sneImm | seReg | sneReg | skp | sknp => cases h; exact skipIf_pc_le hhi
    | call nnn =>
      obtain ⟨k, -, rfl⟩ := exec_call_next hf h
      exact (addressOperand_toNat_lt nnn).le.trans (by decide)
    | ret =>
      obtain ⟨k, -, rfl⟩ := exec_ret_next hf h
      exact (hs k).trans (by decide)
    | ldKey =>
      obtain ⟨-, rfl⟩ | ⟨k, -, rfl⟩ := exec_ldKey_next h
      · simp only [State.setPc_pc]
        bv_omega
      · exact hhi.trans (by decide)
    | _ => simp [writesOf, These, TheseBytes] at hw
  · rw [show t.pc = s.pc from exec_frame hf h .pc hw]
    omega

/-- The one entry an instruction writes takes the post-fetch PC (R82). -/
theorem exec_stack_le (hf : faultOf i s = none) (h : exec i s = .next t) (hhi : s.pc.toNat ≤ 0x1000)
    (hs : ∀ k, (s.stack.get k).toNat ≤ 0x1000) (k : Fin 16) : (t.stack.get k).toNat ≤ 0x1000 := by
  by_cases hw : writesOf i s (.entry k)
  · obtain ⟨nnn, rfl⟩ := call_of_writesOf_entry hw
    obtain ⟨j, -, rfl⟩ := exec_call_next hf h
    simp only [stackEntry_set]
    split
    · exact hhi
    · exact hs k
  · rw [show t.stack.get k = s.stack.get k from exec_frame hf h (.entry k) hw]
    exact hs k

/-! ### The fault record -/

/-- The record of an instruction's fault fits the state it leaves, where the word at PC is the instruction's (R124). -/
theorem raiseFault_fits {k : FaultKind} {n : Nat} (hf : faultOf i s = some (k, n))
    (hw : (s.raiseFault k i n).fetchWord = some (encode i)) :
    FaultRecord.fits ⟨k, s.pc - 2, some (encode i), n⟩ (s.raiseFault k i n) := by
  refine ⟨rfl, hw.symm, ?_⟩
  cases i with
  | call nnn =>
    simp only [faultOf, Option.ite_none_right_eq_some, Option.some.injEq, Prod.mk.injEq] at hf
    obtain ⟨hsp, rfl, rfl⟩ := hf
    exact ⟨⟨_, hw, groupOf_formatA _ _⟩, hsp, rfl⟩
  | ret u =>
    simp only [faultOf, Option.ite_none_right_eq_some, Option.some.injEq, Prod.mk.injEq] at hf
    obtain ⟨hsp, rfl, rfl⟩ := hf
    exact ⟨⟨_, hw, groupOf_formatXK _ _ _, fieldKK_formatXK _ _ _⟩, hsp, rfl⟩
  | drw x y m =>
    simp only [faultOf, Option.ite_none_left_eq_some, Option.some.injEq, Prod.mk.injEq] at hf
    obtain ⟨-, rfl, rfl⟩ := hf
    exact ⟨⟨_, hw, .inl (groupOf_formatXYN _ _ _ _)⟩, rfl⟩
  | ldBcd | storeRegs | loadRegs =>
    simp only [faultOf, Option.ite_none_left_eq_some, Option.some.injEq, Prod.mk.injEq] at hf
    obtain ⟨-, rfl, rfl⟩ := hf
    exact ⟨⟨_, hw, .inr ⟨groupOf_formatXK _ _ _, by simp [encode]⟩⟩, rfl⟩
  | _ => cases hf

theorem FaultRecord.fits_congr {r : FaultRecord} (h : r.fits s) (hmem : t.mem = s.mem) (hpc : t.pc = s.pc)
    (hi : t.i = s.i) (hsp : t.sp = s.sp) : r.fits t := by
  simpa only [FaultRecord.fits, State.fetchWord_congr hmem hpc, hpc, hi, hsp] using h

/-! ### The invariant -/

/-- Settles O52: every clause is about one state. -/
theorem resetMeetsTheInvariant : Obligations.ResetMeetsTheInvariant :=
  ⟨by decide, by decide, by decide, by decide, fun _ h => nomatch h⟩

/-- The invariant speaks of memory, PC, the stack, I, the run state and the fault record, and of nothing else. -/
theorem State.Inv.congr (h : s.Inv) (hmem : t.mem = s.mem) (hpc : t.pc = s.pc) (hi : t.i = s.i)
    (hstack : t.stack = s.stack) (hsp : t.sp = s.sp) (hrun : t.run = s.run) (hfault : t.fault = s.fault) : t.Inv where
  memory := hmem ▸ h.memory
  pc := hpc ▸ h.pc
  stack := hstack ▸ h.stack
  halted := by rw [hrun, hfault]; exact h.halted
  record r hr := FaultRecord.fits_congr (h.record r (hfault ▸ hr)) hmem hpc hi hsp

theorem State.Inv.answer (h : s.Inv) (r : Reply) : (s.answer r).Inv := h.congr rfl rfl rfl rfl rfl rfl rfl

theorem poweredOn_inv (p : Parameters) (s : State) (rom : List Byte) : (s.poweredOn p rom).Inv where
  memory := wf_powerOnMemory p rom
  pc := resetMeetsTheInvariant.pc
  stack := resetMeetsTheInvariant.stack
  halted := resetMeetsTheInvariant.halted
  record _ h := nomatch h

theorem powerOn_keeps_inv (h : s.Inv) (p : Parameters) (rom : List Byte) : (s.powerOn p rom).Inv := by
  obtain ⟨-, e⟩ | ⟨-, e⟩ := s.powerOn_cases p rom <;> rw [e]
  · exact h.answer _
  · exact (poweredOn_inv p s rom).answer _

theorem fetchFault_inv (h : s.Inv) (hw : s.fetchWord = none) : s.fetchFault.Inv where
  memory := h.memory
  pc := h.pc
  stack := h.stack
  halted := by simp [State.fetchFault]
  record r hr := by
    obtain rfl := Option.some.inj hr
    exact ⟨rfl, hw.symm, hw, rfl⟩

/-- Executing the instruction that the word at PC decodes to keeps the invariant. -/
theorem exec_keeps_inv {strict : Bool} {w : Word} {r : Option Byte} (h : s.Inv) (hrun : s.run = .running)
    (hw : s.fetchWord = some w) (hd : decodeWord strict w = .ok i) (he : exec i (s.beginCycle r) = .next t) :
    t.Inv := by
  have hpc : s.pc.toNat ≤ 0xFFE := by
    obtain ⟨hpc, -⟩ | ⟨-, e⟩ := s.fetchWord_cases
    · exact hpc
    · cases e.symm.trans hw
  have hnext : (s.beginCycle r).pc.toNat = s.pc.toNat + 2 := by
    rw [State.beginCycle_pc]
    bv_omega
  have hback : (s.beginCycle r).pc - 2 = s.pc := BitVec.add_sub_cancel _ _
  have hnone : s.fault = none := by simpa [hrun] using h.halted
  obtain hf | ⟨k, n, hf, rfl⟩ := exec_cases he
  · have hfault : t.fault = none := (exec_keeps_fault hf he).trans hnone
    exact {
      memory := exec_keeps_wf hf he h.memory
      pc := exec_pc_le hf he (by omega) (by omega) h.stack
      stack := exec_stack_le hf he (by omega) h.stack
      halted := by simp [exec_keeps_run hf he, hrun, hfault]
      record := by simp [hfault] }
  · have hword : ((s.beginCycle r).raiseFault k i n).fetchWord = some (encode i) := by
      rw [encode_of_decodeWord hd, ← hw]
      exact State.fetchWord_congr (s := s) rfl hback
    exact {
      memory := h.memory
      pc := (congrArg BitVec.toNat hback).trans_le h.pc
      stack := h.stack
      halted := by simp [State.raiseFault_eq]
      record := fun f hrec => by
        obtain rfl := Option.some.inj hrec
        exact raiseFault_fits hf hword }

theorem cycleWith_keeps_inv {strict : Bool} {r : Option Byte} (h : s.Inv) (hc : cycleWith strict r s = .next t) :
    t.Inv := by
  obtain ⟨-, e⟩ | ⟨-, hw, e⟩ | ⟨w, d, -, -, -, e⟩ | ⟨w, i, hrun, hw, hd, e⟩ := cycleWith_cases s strict r
  · cases e.symm.trans hc
    exact h.answer _
  · cases e.symm.trans hc
    exact (fetchFault_inv h hw).answer _
  · cases e.symm.trans hc
  · rw [e] at hc
    cases he : exec i (s.beginCycle r) with
    | next u =>
      rw [he] at hc
      cases hc
      exact (exec_keeps_inv h hrun hw hd he).answer _
    | fault f => exact nomatch f
    | refused f => rw [he] at hc; cases hc

theorem transact_keeps_inv {p : Parameters} {q : Transaction} (h : s.Inv) (hq : transact p q s = .next t) : t.Inv := by
  cases q with
  | powerOn rom => cases hq; exact powerOn_keeps_inv h p rom
  | cycle b => exact cycleWith_keeps_inv h hq
  | setKey | timerTick | readDisplay | readTimers | readSound | readFault =>
    cases hq
    exact h.congr rfl rfl rfl rfl rfl rfl rfl

/-- Settles O53: a step is a cycle, or a transaction with the oldest pending one taken off the list. -/
theorem everyStepKeepsTheInvariant : Obligations.EveryStepKeepsTheInvariant := by
  intro s t h hstep
  obtain ⟨-, e⟩ | ⟨q, rest, -, e⟩ := step_cases s
  · exact cycleWith_keeps_inv h (e.symm.trans hstep)
  · exact transact_keeps_inv (s := { s with pending := rest }) (h.congr rfl rfl rfl rfl rfl rfl rfl)
      (e.symm.trans hstep)

end Sys2Proof.Machine

/-! ## Stack entries that are not in use (O54) -/

namespace Sys2Proof.Machine

variable {s s' t t' : State} {i : Instr} {st : Vector Word 16}

/-- The state with other stack entries. -/
def State.withStack (s : State) (st : Vector Word 16) : State := { s with stack := st }

@[simp] theorem State.withStack_run (s : State) : (s.withStack st).run = s.run := rfl
@[simp] theorem State.withStack_pending (s : State) : (s.withStack st).pending = s.pending := rfl
@[simp] theorem State.withStack_fetchWord (s : State) : (s.withStack st).fetchWord = s.fetchWord := rfl

theorem State.skipIf_withStack (s : State) (c : Bool) : (s.withStack st).skipIf c = (s.skipIf c).withStack st := by
  cases c <;> rfl

theorem State.setRegs_withStack (s : State) (bs : List Byte) :
    (s.withStack st).setRegs bs = (s.setRegs bs).withStack st := rfl

theorem State.drawing_withStack (s : State) (x y : Reg) (n : Nibble) :
    (s.withStack st).drawing x y n = s.drawing x y n :=
  drawing_congr rfl rfl rfl (by rintro _ ⟨k, -, rfl⟩; rfl) rfl

/-- Two states that differ only in stale entries: one is the other with stack entries that agree below SP. -/
theorem sameButStaleEntries_iff :
    SameButStaleEntries s s' ↔
      ∃ st : Vector Word 16, s' = s.withStack st ∧ ∀ k : Fin 16, k.val < s.sp.val → st.get k = s.stack.get k := by
  constructor
  · rintro ⟨h, hk⟩
    exact ⟨s'.stack, h, hk⟩
  · rintro ⟨st, rfl, hk⟩
    exact ⟨rfl, hk⟩

theorem SameButStaleEntries.refl (s : State) : SameButStaleEntries s s := ⟨rfl, fun _ _ => rfl⟩

/-- An update that does not look at the stack keeps the relation. -/
theorem SameButStaleEntries.update {f : State → State} (h : SameButStaleEntries s s')
    (hf : ∀ s st, f (s.withStack st) = (f s).withStack st) (hstack : (f s).stack = s.stack)
    (hsp : (f s).sp = s.sp) : SameButStaleEntries (f s) (f s') := by
  obtain ⟨st, rfl, hk⟩ := sameButStaleEntries_iff.1 h
  exact sameButStaleEntries_iff.2 ⟨st, hf s st, by rwa [hstack, hsp]⟩

/-! ### Instructions -/

theorem faultOf_withStack (i : Instr) (s : State) : faultOf i (s.withStack st) = faultOf i s := by
  cases i <;> rfl

/-- An instruction other than CALL and RET does the same whatever the stack holds. -/
theorem exec_withStack (hsp : ¬ writesOf i s .sp) (hf : faultOf i s = none) (h : exec i s = .next t)
    (h' : exec i (s.withStack st) = .next t') : t' = t.withStack st := by
  have hf' : faultOf i (s.withStack st) = none := (faultOf_withStack i s).trans hf
  cases i with
  | call | ret => exact absurd (by simp [writesOf, These]) hsp
  | drw x y n =>
    obtain rfl := exec_drw_next hf h
    rw [exec_drw_next hf' h', s.drawing_withStack]
    rfl
  | ldBcd => obtain ⟨-, rfl⟩ := exec_ldBcd_next hf h; exact (exec_ldBcd_next hf' h').2
  | storeRegs => obtain ⟨-, rfl⟩ := exec_storeRegs_next hf h; exact (exec_storeRegs_next hf' h').2
  | loadRegs x =>
    obtain rfl := exec_loadRegs_next hf h
    rw [exec_loadRegs_next hf' h', s.setRegs_withStack]
    rfl
  | ldKey x =>
    obtain ⟨hk, rfl⟩ | ⟨k, hk, rfl⟩ := exec_ldKey_next h <;> obtain ⟨hk', rfl⟩ | ⟨k', hk', rfl⟩ := exec_ldKey_next h'
    · rfl
    · cases hk.symm.trans hk'
    · cases hk.symm.trans hk'
    · cases hk.symm.trans hk'
      rfl
  | seImm | sneImm | seReg | sneReg | skp | sknp => cases h; cases h'; exact s.skipIf_withStack _
  | _ => cases h; cases h'; rfl

/-- CALL pushes the same return address in both states, so the entry it takes into use agrees. -/
theorem call_keeps_sameButStaleEntries {nnn : Addr12} (hs : SameButStaleEntries s s')
    (hf : faultOf (.call nnn) s = none) (hf' : faultOf (.call nnn) s' = none)
    (h : exec (.call nnn) s = .next t) (h' : exec (.call nnn) s' = .next t') : SameButStaleEntries t t' := by
  obtain ⟨st, rfl, hst⟩ := sameButStaleEntries_iff.1 hs
  obtain ⟨k, hk, rfl⟩ := exec_call_next hf h
  obtain ⟨k', hk', rfl⟩ := exec_call_next hf' h'
  obtain rfl : k' = k := Fin.ext (hk'.trans hk.symm)
  refine ⟨rfl, fun j hj => ?_⟩
  simp only [stackEntry_set]
  split
  · rfl
  · next hne =>
    have hlt : j.val < k'.val := Nat.lt_of_le_of_ne (Nat.le_of_lt_succ hj) fun e => hne (Fin.ext e.symm)
    exact hst j (hk ▸ hlt)

/-- RET reads an entry in use, which is the same in both states. -/
theorem ret_keeps_sameButStaleEntries {u : Nibble} (hs : SameButStaleEntries s s')
    (hf : faultOf (.ret u) s = none) (hf' : faultOf (.ret u) s' = none)
    (h : exec (.ret u) s = .next t) (h' : exec (.ret u) s' = .next t') : SameButStaleEntries t t' := by
  obtain ⟨st, rfl, hst⟩ := sameButStaleEntries_iff.1 hs
  obtain ⟨k, hk, rfl⟩ := exec_ret_next hf h
  obtain ⟨k', hk', rfl⟩ := exec_ret_next hf' h'
  obtain rfl : k' = k := Fin.ext (Nat.succ_injective (hk'.trans hk.symm))
  have hbelow : ∀ j : Fin 16, j.val ≤ k'.val → st.get j = s.stack.get j :=
    fun j hj => hst j (hk ▸ Nat.lt_succ_of_le hj)
  refine ⟨?_, fun j hj => hbelow j (Nat.le_of_lt hj)⟩
  simp only [State.withStack, hbelow k' le_rfl]

theorem exec_keeps_sameButStaleEntries (hs : SameButStaleEntries s s') (h : exec i s = .next t)
    (h' : exec i s' = .next t') : SameButStaleEntries t t' := by
  obtain ⟨st, rfl, hst⟩ := sameButStaleEntries_iff.1 hs
  have hff := faultOf_withStack (st := st) i s
  obtain hf | ⟨k, n, hf, rfl⟩ := exec_cases h
  · by_cases hsp : writesOf i s .sp
    · obtain ⟨nnn, rfl⟩ | ⟨u, rfl⟩ := call_or_ret_of_writesOf_sp hsp
      · exact call_keeps_sameButStaleEntries hs hf (hff.trans hf) h h'
      · exact ret_keeps_sameButStaleEntries hs hf (hff.trans hf) h h'
    · obtain rfl := exec_withStack hsp hf h h'
      have hentry : t.stack = s.stack := by
        by_contra hne
        obtain ⟨k, hk⟩ := exists_entry_of_stack_ne hne
        obtain ⟨nnn, rfl⟩ := call_of_writesOf_entry (exec_writes h (by simp [These]) hk)
        exact hsp (.inr (.inl rfl))
      have hdepth : t.sp = s.sp := exec_frame hf h .sp hsp
      exact sameButStaleEntries_iff.2 ⟨st, rfl, by rwa [hentry, hdepth]⟩
  · obtain rfl := Host.Outcome.next.inj (h'.symm.trans (exec_of_faultOf_some (hff.trans hf)))
    exact hs.update (f := fun s => s.raiseFault k i n) (fun _ _ => rfl) rfl rfl

/-! ### The cycle and the step -/

theorem cycleWith_keeps_sameButStaleEntries {strict : Bool} {r : Option Byte} (hs : SameButStaleEntries s s')
    (h : cycleWith strict r s = .next t) : ∃ t', cycleWith strict r s' = .next t' ∧ SameButStaleEntries t t' := by
  obtain ⟨st, rfl, hst⟩ := sameButStaleEntries_iff.1 hs
  obtain ⟨hrun, e⟩ | ⟨hrun, hw, e⟩ | ⟨w, d, -, -, -, e⟩ | ⟨w, i, hrun, hw, hd, e⟩ := cycleWith_cases s strict r
  · cases e.symm.trans h
    refine ⟨(s.withStack st).answer .halted, by simp [cycleWith, hrun], ?_⟩
    exact hs.update (f := fun s => s.answer .halted) (fun _ _ => rfl) rfl rfl
  · cases e.symm.trans h
    refine ⟨(s.withStack st).fetchFault.answer ((s.withStack st).fetchFault.cycleReply false),
      by simp [cycleWith, hrun, hw], ?_⟩
    exact hs.update (f := fun s => s.fetchFault.answer (s.fetchFault.cycleReply false)) (fun _ _ => rfl) rfl rfl
  · cases e.symm.trans h
  · have hbegin : SameButStaleEntries (s.beginCycle r) ((s.withStack st).beginCycle r) :=
      hs.update (f := fun s => s.beginCycle r) (fun _ _ => rfl) rfl rfl
    obtain ⟨u, hu⟩ := exec_total i (s.beginCycle r)
    obtain ⟨u', hu'⟩ := exec_total i ((s.withStack st).beginCycle r)
    rw [e, hu] at h
    cases h
    refine ⟨u'.answer (u'.cycleReply (frameReady i)), by simp [cycleWith, hrun, hw, hd, hu', finishCycle_next], ?_⟩
    exact (exec_keeps_sameButStaleEntries hbegin hu hu').update
      (f := fun u => u.answer (u.cycleReply (frameReady i))) (fun _ _ => rfl) rfl rfl

theorem powerOn_keeps_sameButStaleEntries (hs : SameButStaleEntries s s') (p : Parameters) (rom : List Byte) :
    SameButStaleEntries (s.powerOn p rom) (s'.powerOn p rom) := by
  obtain ⟨st, rfl, -⟩ := sameButStaleEntries_iff.1 hs
  by_cases hlen : rom.length > Config.romMax
  · simp only [State.powerOn, if_pos hlen]
    exact hs.update (f := fun s => s.answer .romTooLarge) (fun _ _ => rfl) rfl rfl
  · simp only [State.powerOn, if_neg hlen]
    exact .refl _

theorem transact_keeps_sameButStaleEntries {p : Parameters} {q : Transaction} (hs : SameButStaleEntries s s')
    (h : transact p q s = .next t) : ∃ t', transact p q s' = .next t' ∧ SameButStaleEntries t t' := by
  cases q with
  | powerOn rom => cases h; exact ⟨_, rfl, powerOn_keeps_sameButStaleEntries hs p rom⟩
  | cycle b => exact cycleWith_keeps_sameButStaleEntries hs h
  | setKey k =>
    cases h
    exact ⟨_, rfl, hs.update (f := fun s => (s.setKey k).answer .done) (fun _ _ => rfl) rfl rfl⟩
  | timerTick =>
    cases h
    exact ⟨_, rfl, hs.update (f := fun s => s.timerTick.answer .done) (fun _ _ => rfl) rfl rfl⟩
  | readDisplay =>
    cases h
    exact ⟨_, rfl, hs.update (f := fun s => s.answer (.display s.display)) (fun _ _ => rfl) rfl rfl⟩
  | readTimers =>
    cases h
    exact ⟨_, rfl, hs.update (f := fun s => s.answer (.timers s.dt s.st)) (fun _ _ => rfl) rfl rfl⟩
  | readSound =>
    cases h
    exact ⟨_, rfl, hs.update (f := fun s => s.answer (.sound s.soundOn)) (fun _ _ => rfl) rfl rfl⟩
  | readFault =>
    cases h
    exact ⟨_, rfl, hs.update (f := fun s => s.answer (.faultStatus s.run s.fault)) (fun _ _ => rfl) rfl rfl⟩

/-- Settles O54: no update looks at a stale entry, CALL overwrites the one it takes into use, and RET reads one in use. -/
theorem staleStackEntriesAreUnobservable : Obligations.StaleStackEntriesAreUnobservable := by
  intro s s' t hs h
  obtain ⟨st, rfl, -⟩ := sameButStaleEntries_iff.1 hs
  obtain ⟨hp, e⟩ | ⟨q, rest, hp, e⟩ := step_cases s
  · obtain ⟨t', h', ht⟩ := cycleWith_keeps_sameButStaleEntries hs (e.symm.trans h)
    have e' : step (s.withStack st) = cycleWith Config.strictDecode none (s.withStack st) := by
      simp only [step, stepWith, State.withStack_pending, hp]
      rfl
    exact ⟨t', e'.trans h', ht⟩
  · have hrest : SameButStaleEntries { s with pending := rest } { s.withStack st with pending := rest } :=
      hs.update (f := fun s => { s with pending := rest }) (fun _ _ => rfl) rfl rfl
    obtain ⟨t', h', ht⟩ := transact_keeps_sameButStaleEntries hrest (e.symm.trans h)
    exact ⟨t', by simpa only [step, stepWith, State.withStack_pending, hp] using h', ht⟩

end Sys2Proof.Machine

/-! ## The flag writers (O21) -/

namespace Sys2Proof.Machine

variable {s t : State} {i : Instr}

/-! ### What a draw flips, and when it collides (R112, R114) -/

/-- From `p` to `q` the drawing flips exactly the cells of `sets`, each once, and it collides where one of them was set. -/
structure Drawing.Flips (p q : Drawing) (sets : Fin 64 → Fin 32 → Prop) : Prop where
  flipped : ∀ {cx cy}, sets cx cy → q.1.cell cx cy = !p.1.cell cx cy
  kept : ∀ {cx cy}, ¬ sets cx cy → q.1.cell cx cy = p.1.cell cx cy
  collision : q.2 = true ↔ p.2 = true ∨ ∃ cx cy, sets cx cy ∧ p.1.cell cx cy = true

theorem Drawing.Flips.refl (p : Drawing) {sets : Fin 64 → Fin 32 → Prop} (h : ∀ cx cy, ¬ sets cx cy) :
    p.Flips p sets where
  flipped hs := absurd hs (h _ _)
  kept _ := rfl
  collision := by simp [h]

/-- Two drawings one after the other flip the cells of both, where no cell is in both. -/
theorem Drawing.Flips.trans {p q r : Drawing} {f g k : Fin 64 → Fin 32 → Prop} (hpq : p.Flips q f) (hqr : q.Flips r g)
    (hdis : ∀ cx cy, f cx cy → ¬ g cx cy) (hk : ∀ cx cy, k cx cy ↔ f cx cy ∨ g cx cy) : p.Flips r k where
  flipped {cx cy} h := by
    obtain hf | hg := (hk cx cy).1 h
    · rw [hqr.kept (hdis cx cy hf), hpq.flipped hf]
    · rw [hqr.flipped hg, hpq.kept fun hf => hdis cx cy hf hg]
  kept {cx cy} h := by
    have hn : ¬ f cx cy ∧ ¬ g cx cy := not_or.1 fun hfg => h ((hk cx cy).2 hfg)
    rw [hqr.kept hn.2, hpq.kept hn.1]
  collision := by
    have hg : (∃ cx cy, g cx cy ∧ q.1.cell cx cy = true) ↔ ∃ cx cy, g cx cy ∧ p.1.cell cx cy = true := by
      refine exists_congr fun cx => exists_congr fun cy => and_congr_right fun h => ?_
      rw [hpq.kept fun hf => hdis cx cy hf h]
    simp only [hqr.collision, hpq.collision, hg, hk, or_and_right, exists_or, or_assoc]

theorem plotBit_flips (p : Drawing) (xx yy : Nat) : p.Flips (plotBit p xx yy) fun cx cy => xx = cx.val ∧ yy = cy.val where
  flipped h := by rw [plotBit_cell, if_pos h]
  kept h := by rw [plotBit_cell, if_neg h]
  collision := by simp only [plotBit_collision, and_assoc]

/-- The cells that the first `n` bits of a sprite row set. -/
def rowSets (row : Byte) (x0 yy n : Nat) (cx : Fin 64) (cy : Fin 32) : Prop :=
  yy = cy.val ∧ x0 ≤ cx.val ∧ cx.val < x0 + n ∧ spriteBit row (cx.val - x0) = true

theorem drawBits_flips (row : Byte) (x0 yy n : Nat) (p : Drawing) :
    p.Flips ((List.range n).foldl (fun q i => if spriteBit row i then plotBit q (x0 + i) yy else q) p)
      (rowSets row x0 yy n) := by
  induction n with
  | zero => exact .refl p fun cx cy ⟨_, h1, h2, _⟩ => by omega
  | succ n ih =>
    simp only [List.range_succ, List.foldl_append, List.foldl_cons, List.foldl_nil]
    by_cases hb : spriteBit row n = true
    · rw [if_pos hb]
      refine ih.trans (plotBit_flips _ _ _) (fun cx cy ⟨_, _, h1, _⟩ ⟨h2, _⟩ => by omega) fun cx cy => ?_
      constructor
      · rintro ⟨hy, h1, h2, h3⟩
        by_cases hx : x0 + n = cx.val
        · exact .inr ⟨hx, hy⟩
        · exact .inl ⟨hy, h1, by omega, h3⟩
      · rintro (⟨hy, h1, h2, h3⟩ | ⟨hx, hy⟩)
        · exact ⟨hy, h1, by omega, h3⟩
        · exact ⟨hy, by omega, by omega, by rwa [← hx, Nat.add_sub_cancel_left]⟩
    · rw [if_neg hb]
      refine ih.trans (.refl _ fun _ _ => not_false) (fun _ _ _ => not_false) fun cx cy => ?_
      constructor
      · rintro ⟨hy, h1, h2, h3⟩
        have hx : cx.val - x0 ≠ n := fun e => hb (e ▸ h3)
        exact .inl ⟨hy, h1, by omega, h3⟩
      · rintro (⟨hy, h1, h2, h3⟩ | h)
        · exact ⟨hy, h1, by omega, h3⟩
        · exact h.elim

theorem drawRow_flips (row : Byte) (x0 yy : Nat) (p : Drawing) :
    p.Flips (drawRow row x0 yy p) (rowSets row x0 yy 8) := drawBits_flips row x0 yy 8 p

/-- The cells that a sprite's rows set, the top row at `y0`. -/
def rowsSet (rows : List Byte) (x0 y0 : Nat) (cx : Fin 64) (cy : Fin 32) : Prop :=
  ∃ (k : Nat) (row : Byte), rows[k]? = some row ∧ rowSets row x0 (y0 + k) 8 cx cy

theorem drawRows_flips (rows : List Byte) (x0 y0 : Nat) (p : Drawing) :
    p.Flips (drawRows rows x0 y0 p) (rowsSet rows x0 y0) := by
  induction rows generalizing y0 p with
  | nil => exact .refl p fun cx cy ⟨k, row, h, _⟩ => by simp at h
  | cons row rows ih =>
    refine (drawRow_flips row x0 y0 p).trans (ih (y0 + 1) _) ?_ fun cx cy => ?_
    · rintro cx cy ⟨hy, -⟩ ⟨k, row', -, hy', -⟩
      omega
    · constructor
      · rintro ⟨k, row', hk, h⟩
        cases k with
        | zero =>
          obtain rfl : row = row' := by simpa using hk
          exact .inl h
        | succ k => exact .inr ⟨k, row', by simpa using hk, by rwa [Nat.add_right_comm]⟩
      · rintro (h | ⟨k, row', hk, h⟩)
        · exact ⟨0, row, rfl, h⟩
        · exact ⟨k + 1, row', by simpa using hk, by rwa [Nat.add_right_comm] at h⟩

/-- What DRW draws: the cells of the sprite's picture flip, and it collides where one of them was set (R112, R114). -/
theorem drawing_flips (s : State) (x y : Reg) (n : Nibble) :
    Drawing.Flips (s.display, false) (s.drawing x y n) (s.spriteSets x y n) := by
  have hpic : s.spriteSets x y n = rowsSet ((List.range n.toNat).map fun k => s.read (s.i.toNat + k))
      (startColumn (s.reg x)) (startRow (s.reg y)) := by
    funext cx cy
    simp only [State.spriteSets, rowsSet, rowSets, spriteBit, startColumn, startRow, List.getElem?_map, eq_iff_iff]
    constructor
    · rintro ⟨h1, h2, h3, h4, h5⟩
      exact ⟨cy.val - (s.reg y).toNat % 32, _, by rw [List.getElem?_range (by omega)]; rfl, by omega, h1, h2, h5⟩
    · rintro ⟨k, row, hk, hy, h1, h2, h3⟩
      simp only [Option.map_eq_some_iff, List.getElem?_eq_some_iff] at hk
      obtain ⟨j, ⟨hlt, rfl⟩, rfl⟩ := hk
      simp only [List.length_range] at hlt
      simp only [List.getElem_range] at h3
      refine ⟨h1, h2, by omega, by omega, ?_⟩
      rwa [← hy, Nat.add_sub_cancel_left]
  rw [hpic]
  exact drawRows_flips _ _ _ _

/-- A draw collides exactly where some cell goes from set to unset: each cell flips at most once (R20, R114). -/
theorem drawing_collision_iff (s : State) (x y : Reg) (n : Nibble) :
    (s.drawing x y n).2 = true ↔
      ∃ cx cy, s.cell cx cy = true ∧ (s.drawing x y n).1.cell cx cy = false := by
  have hd := drawing_flips s x y n
  rw [hd.collision]
  constructor
  · rintro (h | ⟨cx, cy, hset, hc⟩)
    · cases h
    · exact ⟨cx, cy, hc, by rw [hd.flipped hset, hc]; rfl⟩
  · rintro ⟨cx, cy, hc, hu⟩
    refine .inr ⟨cx, cy, ?_, hc⟩
    by_contra hset
    rw [hd.kept hset] at hu
    exact Bool.noConfusion (hc.symm.trans hu)

/-! ### The flag as a number -/

theorem reg_vF_setRegThenFlag (s : State) (x : Reg) (b : Byte) (c : Bool) :
    ((s.setRegThenFlag x b c).reg vF).toNat = if c then 1 else 0 := by
  rw [State.reg_setRegThenFlag, if_pos rfl]
  cases c <;> rfl

theorem flag_shrOut (b : Byte) : (if shrOut b then 1 else 0) = b.toNat % 2 := by
  revert b; decide

theorem flag_shlOut (b : Byte) : (if shlOut b then 1 else 0) = b.toNat / 128 := by
  revert b; decide

/-- Settles O21: the six flags by the registers they leave; every other writer of VF has it in its row. -/
theorem flagWritersAreExactlySix : Obligations.FlagWritersAreExactlySix := by
  intro i s t h hf
  have row (hne : t.reg vF ≠ s.reg vF) : writesOf i s (.reg vF) := exec_writes h (by simp [These]) hne
  cases i with
  | addReg x y => cases h; simp [reg_vF_setRegThenFlag, carryOut]
  | subReg x y => cases h; simp [reg_vF_setRegThenFlag, noBorrow]
  | subnReg x y => cases h; simp [reg_vF_setRegThenFlag, noBorrow]
  | shr x y => cases h; rw [reg_vF_setRegThenFlag, flag_shrOut]
  | shl x y => cases h; rw [reg_vF_setRegThenFlag, flag_shlOut]
  | drw x y n =>
    obtain rfl := exec_drw_next hf h
    have hc := drawing_collision_iff s x y n
    simp only [State.setFlag_eq, State.reg_setReg_self]
    exact ⟨fun hu => by rw [hc.2 hu]; rfl, fun hu => by rw [Bool.eq_false_iff.2 (mt hc.1 hu)]; rfl⟩
  | ldImm | addImm | ldReg | orReg | andReg | xorReg | ldFromDelay | rnd =>
    intro hne
    have hx := row hne
    simp only [writesOf, These, List.mem_cons, Part.reg.injEq, reduceCtorEq, List.not_mem_nil, or_false] at hx
    simp [← hx, vF]
  | ldKey x =>
    intro hne
    have hx : vF = x := by simpa using writesOf_ldKey (row hne)
    simp [← hx, vF]
  | loadRegs x =>
    intro hne
    obtain ⟨r, hr, e⟩ := row hne
    cases e
    have hx : x = 0xF := BitVec.eq_of_toNat_eq (Nat.le_antisymm (Nat.le_of_lt_succ x.isLt) hr)
    simp [hx]
  | _ =>
    intro hne
    exact absurd (row hne) (by simp [writesOf, These, TheseBytes])

end Sys2Proof.Machine

/-! ## Power-on and reset (O49, O51) -/

namespace Sys2Proof.Machine

theorem reset_reg (r : Reg) : State.reset.reg r = 0 := by
  simp [State.reg, State.reset]

theorem reset_stack_get (k : Fin 16) : State.reset.stack.get k = 0 := by
  simp [State.reset, Vector.get]

theorem reset_cell (cx : Fin 64) (cy : Fin 32) : State.reset.cell cx cy = false := Display.cell_blank cx cy

/-- Reset lists no byte, so every address reads as power-on leaves it. -/
theorem reset_read (a : Nat) : State.reset.read a = powerOnByte parameters [] a := rfl

/-- Settles O51. -/
theorem resetIsThePowerOnState : Obligations.ResetIsThePowerOnState := by
  refine ⟨rfl, rfl, rfl, rfl, rfl, rfl, rfl, rfl, reset_reg, reset_stack_get, reset_cell, by decide, by decide,
    fun a ha => ?_⟩
  rw [reset_read, powerOnByte_memInit parameters [] a (by simp only [List.length_nil]; omega)]
  rfl

/-- `read_powerOnMemory` with the bound as a numeral. -/
theorem powerOnMemory_read (p : Parameters) (rom : List Byte) {a : Nat} (h : a ≤ 0xFFF) :
    (powerOnMemory p rom).read a = powerOnByte p rom a := read_powerOnMemory p rom a h

/-- The step that performs PowerOn of an image that fits. -/
theorem stepWith_powerOn (p : Parameters) (s : State) {rom : List Byte} {rest : List Transaction}
    (hp : s.pending = .powerOn rom :: rest) (hlen : rom.length ≤ 3584) :
    stepWith p s = .next ((State.poweredOn p { s with pending := rest } rom).answer .ok) := by
  obtain ⟨h, -⟩ | ⟨-, e⟩ := State.powerOn_cases { s with pending := rest } p rom
  · omega
  · simp only [stepWith, hp, transact, e]

/-- Settles O49: the registers are those of reset, the memory is read through `read_powerOnMemory`. -/
theorem powerOnBuildsTheState : Obligations.PowerOnBuildsTheState := by
  refine ⟨fun p s rom rest hp hlen => ⟨_, stepWith_powerOn p s hp hlen, rfl, rfl, rfl, rfl, rfl, rfl, rfl, rfl, rfl, rfl,
    reset_reg, reset_stack_get, reset_cell, wf_powerOnMemory p rom, fun k h => ?_, fun k h => ?_, fun a h => ?_⟩,
    fun _ => rfl, rfl, rfl, fun _ => rfl⟩
  · exact (powerOnMemory_read p rom (by omega)).trans (powerOnByte_rom p rom k h)
  · exact (powerOnMemory_read p rom (by omega)).trans (powerOnByte_font p rom k h)
  · exact (powerOnMemory_read p rom (by omega)).trans (powerOnByte_memInit p rom a (by omega))

end Sys2Proof.Machine

/-! ## Decoding inverts encoding (O2) -/

namespace Sys2Proof

/-- Decoding bytes that begin with those of a word decodes the word (R44, R58). -/
theorem decode_wordBytes (strict : Bool) (w : Word) (rest : List Byte) :
    decode strict (wordBytes w ++ rest) = (decodeWord strict w).map (·, rest) := by
  simp only [wordBytes, List.cons_append, List.nil_append, decode, composeWord_of_bytes]

/-- Where the unexamined field is as well-formedness asks, the literal reading answers (R68). -/
theorem literalReading_of_wellFormed {strict : Bool} {u : Nibble} (h : (!strict || u == 0) = true) (w : Word)
    (i : Instr) : literalReading strict u w i = .ok i := by
  obtain ⟨rfl, hu, -⟩ | ⟨-, e⟩ := literalReading_cases strict u w i
  · exact absurd (by simpa using h) hu
  · exact e

/-! ### The words that no specific row of a group claims (R62, R64 to R67) -/

theorem decodeGroup0_otherwise {strict : Bool} {w : Word} (h : fieldKK w ∉ group0Bytes) :
    decodeGroup0 strict w = .ok (.sys (fieldNNN w)) := by
  simp only [group0Bytes, List.mem_cons, List.not_mem_nil, or_false, not_or] at h
  simp only [decodeGroup0, h, if_false]

theorem decodeGroup8_otherwise {w : Word} (h : fieldN w ∉ group8Nibbles) :
    decodeGroup8 w = .undef8 (fieldX w) (fieldY w) (fieldN w) := by
  simp only [group8Nibbles, List.mem_cons, List.not_mem_nil, or_false, not_or] at h
  simp only [decodeGroup8, h, if_false]

theorem decodeGroupE_otherwise {w : Word} (h : fieldKK w ∉ groupEBytes) :
    decodeGroupE w = .undefE (fieldX w) (fieldKK w) := by
  simp only [groupEBytes, List.mem_cons, List.not_mem_nil, or_false, not_or] at h
  simp only [decodeGroupE, h, if_false]

theorem decodeGroupF_otherwise {w : Word} (h : fieldKK w ∉ groupFBytes) :
    decodeGroupF w = .undefF (fieldX w) (fieldKK w) := by
  simp only [groupFBytes, List.mem_cons, List.not_mem_nil, or_false, not_or] at h
  simp only [decodeGroupF, h, if_false]

/-- A well-formed instruction is what its word decodes to: its group and its function field select its row, and every
operand comes back from its field (R59, R69). -/
theorem decodeWord_encode {strict : Bool} {i : Instr} (h : i.wellFormedWith strict = true) :
    decodeWord strict (encode i) = .ok i := by
  cases i with
  | sys nnn =>
    have hfn : nnn.setWidth 8 ∉ group0Bytes := by simpa [Instr.wellFormedWith] using h
    simp [encode, decodeWord_group0, decodeGroup0_otherwise, hfn]
  | cls u | ret u => simp [encode, decodeWord_group0, decodeGroup0, literalReading_of_wellFormed h]
  | seReg x y u => simp [encode, decodeWord_group5, literalReading_of_wellFormed h]
  | sneReg x y u => simp [encode, decodeWord_group9, literalReading_of_wellFormed h]
  | ldReg | orReg | andReg | xorReg | addReg | subReg | shr | subnReg | shl =>
    simp [encode, decodeWord_group8, decodeGroup8]
  | undef8 x y fn =>
    have hfn : fn ∉ group8Nibbles := by simpa [Instr.wellFormedWith] using h
    simp [encode, decodeWord_group8, decodeGroup8_otherwise, hfn]
  | skp | sknp => simp [encode, decodeWord_groupE, decodeGroupE]
  | undefE x fn =>
    have hfn : fn ∉ groupEBytes := by simpa [Instr.wellFormedWith] using h
    simp [encode, decodeWord_groupE, decodeGroupE_otherwise, hfn]
  | ldFromDelay | ldKey | ldDelay | ldSound | addI | ldFont | ldBcd | storeRegs | loadRegs =>
    simp [encode, decodeWord_groupF, decodeGroupF]
  | undefF x fn =>
    have hfn : fn ∉ groupFBytes := by simpa [Instr.wellFormedWith] using h
    simp [encode, decodeWord_groupF, decodeGroupF_otherwise, hfn]
  | jp => simp [encode, decodeWord_group1]
  | call => simp [encode, decodeWord_group2]
  | seImm => simp [encode, decodeWord_group3]
  | sneImm => simp [encode, decodeWord_group4]
  | ldImm => simp [encode, decodeWord_group6]
  | addImm => simp [encode, decodeWord_group7]
  | ldI => simp [encode, decodeWord_groupA]
  | jpV0 => simp [encode, decodeWord_groupB]
  | rnd => simp [encode, decodeWord_groupC]
  | drw => simp [encode, decodeWord_groupD]

/-- Settles O2: the bytes give the word back, and the word the instruction. -/
theorem decodeInvertsEncode : Obligations.DecodeInvertsEncode := by
  intro strict i rest h
  rw [decode_wordBytes, decodeWord_encode h]
  rfl

end Sys2Proof

/-! ## Fetch, and the cycle around it (O8, O10) -/

namespace Sys2Proof.Machine

variable {s t : State} {i : Instr}

/-- A fetch within memory reads the bytes at PC and PC + 1 (R46, R53). -/
theorem fetchWord_of_le (h : s.pc.toNat ≤ 0xFFE) :
    s.fetchWord = some (composeWord (s.read s.pc.toNat) (s.read (s.pc.toNat + 1))) := by
  obtain ⟨-, e⟩ | ⟨hgt, -⟩ := s.fetchWord_cases
  · exact e
  · omega

theorem fetchWord_of_gt (h : 0xFFE < s.pc.toNat) : s.fetchWord = none := by
  obtain ⟨hle, -⟩ | ⟨-, e⟩ := s.fetchWord_cases
  · omega
  · exact e

theorem State.answer_frame (s : State) (q : Reply) : Frame s (s.answer q) (These [.reply]) := by
  intro p hp
  cases p with
  | reply => exact absurd (List.mem_singleton.2 rfl) hp
  | _ => rfl

/-- FetchBounds leaves PC, too, as it was. -/
theorem State.fetchFault_frame (s : State) : Frame s s.fetchFault (These [.run, .fault]) := by
  intro p hp
  cases p with
  | run | fault => exact absurd (by simp [These]) hp
  | _ => rfl

/-- The cycle of a running core that cannot fetch (R53). -/
theorem cycleWith_of_fetchWord_none (strict : Bool) (r : Option Byte) (hrun : s.run = .running)
    (hw : s.fetchWord = none) :
    cycleWith strict r s =
      .next (s.fetchFault.answer (.faulted ⟨.fetchBounds, s.pc, none, max s.pc.toNat 0x1000⟩)) := by
  simp only [cycleWith, hrun, hw]
  rfl

/-- Settles O10. -/
theorem fetchReadsTwoBytesOrFaults : Obligations.FetchReadsTwoBytesOrFaults := by
  refine ⟨fun s h => ⟨_, fetchWord_of_le h, composeWord_toNat _ _⟩, fun strict r s hrun h => ?_⟩
  refine ⟨_, _, cycleWith_of_fetchWord_none strict r hrun (fetchWord_of_gt h), rfl, rfl, rfl, rfl, ?_⟩
  exact s.fetchFault_frame.trans_mono (State.answer_frame _ _) (by simp +contextual [These])
    (by simp +contextual [These])

/-- The cycle of a running core whose fetched word decodes to `i` executes `i` and answers (R73). -/
theorem cycleWith_of_decodeWord {strict : Bool} {r : Option Byte} {w : Word} (hrun : s.run = .running)
    (hw : s.fetchWord = some w) (hd : decodeWord strict w = .ok i) (he : exec i (s.beginCycle r) = .next t) :
    cycleWith strict r s = .next (t.answer (t.cycleReply (frameReady i))) := by
  simp only [cycleWith, hrun, hw, hd, he, finishCycle_next]

/-- The next transaction is a Cycle with random input `r`: none pending, or the oldest pending one (R133, R134). -/
theorem step_eq_cycleWith {r : Option Byte} {rest : List Transaction}
    (h : (r = none ∧ s.pending = [] ∧ rest = []) ∨ ∃ b, r = some b ∧ s.pending = .cycle b :: rest) :
    step s = cycleWith Config.strictDecode r { s with pending := rest } := by
  obtain ⟨rfl, hp, rfl⟩ | ⟨b, rfl, hp⟩ := h
  · simp only [step, stepWith, hp, parameters]
    rw [← hp]
  · simp only [step, stepWith, hp, transact, parameters]

theorem decodeWord_of_decode {strict : Bool} {hi lo : Byte} (h : decode strict [hi, lo] = .ok (i, [])) :
    decodeWord strict (composeWord hi lo) = .ok i := by
  rw [decode] at h
  cases hd : decodeWord strict (composeWord hi lo) with
  | error e => rw [hd] at h; cases h
  | ok j => rw [hd] at h; cases h; rfl

theorem cycleReply_running {ready : Bool} (h : t.run = .running) : t.cycleReply ready = .retired ready := by
  simp only [State.cycleReply, h]

theorem cycleReply_halted {ready : Bool} {f : FaultRecord} (h : t.run = .halted) (hf : t.fault = some f) :
    t.cycleReply ready = .faulted f := by
  simp only [State.cycleReply, h, hf]

/-- Settles O8: the step is a cycle, which fetches, decodes and executes. -/
theorem stepRunsTheDecodedInstruction : Obligations.StepRunsTheDecodedInstruction := by
  intro s i r rest hrun hpc hd hnext t he
  have hcycle : step s = .next (t.answer (t.cycleReply (frameReady i))) :=
    (step_eq_cycleWith hnext).trans
      (cycleWith_of_decodeWord (s := { s with pending := rest }) hrun (fetchWord_of_le hpc) (decodeWord_of_decode hd) he)
  exact ⟨_, hcycle, cycleReply_running, fun _ => cycleReply_halted⟩

end Sys2Proof.Machine

/-! ## Bytes of memory: who writes them, and a fetch after a store (O17, O40) -/

namespace Sys2Proof.Machine

variable {s t : State}

theorem theseBytes_byte_iff {a n c : Nat} : TheseBytes a n (.byte c) ↔ a ≤ c ∧ c < a + n := by
  constructor
  · rintro ⟨k, hk, e⟩
    cases e
    omega
  · rintro ⟨hle, hlt⟩
    exact ⟨c - a, by omega, congrArg Part.byte (by omega)⟩

theorem store_of_writesOf_byte {i : Instr} {a : Nat} (h : writesOf i s (.byte a)) :
    (∃ x, i = .ldBcd x) ∧ s.i.toNat ≤ a ∧ a ≤ s.i.toNat + 2 ∨
    ∃ x, i = .storeRegs x ∧ s.i.toNat ≤ a ∧ a ≤ s.i.toNat + x.toNat := by
  cases i with
  | ldBcd x =>
    obtain ⟨hle, hlt⟩ := theseBytes_byte_iff.1 h
    exact .inl ⟨⟨x, rfl⟩, hle, by omega⟩
  | storeRegs x =>
    obtain ⟨hle, hlt⟩ := theseBytes_byte_iff.1 h
    exact .inr ⟨x, rfl, hle, by omega⟩
  | ldKey x => simpa using writesOf_ldKey h
  | _ => simp [writesOf, These] at h

/-- Settles O17: a byte that changes is one the instruction's row lets it write. -/
theorem memoryIsWrittenOnlyByTwoOperations : Obligations.MemoryIsWrittenOnlyByTwoOperations := by
  intro i s t a h hc
  exact store_of_writesOf_byte (exec_writes h (by simp [These]) hc)

/-- After LD [I], Vx the byte at I + r is Vr, for every r up to x (R107). -/
theorem read_of_exec_storeRegs {x r : Reg} (hf : faultOf (.storeRegs x) s = none)
    (h : exec (.storeRegs x) s = .next t) (hr : r ≤ x) : t.read (s.i.toNat + r.toNat) = s.reg r := by
  obtain ⟨-, rfl⟩ := exec_storeRegs_next hf h
  rw [State.read, Memory.read_writeBytes, if_pos (Nat.le_add_right _ _), Nat.add_sub_cancel_left,
    s.regsUpTo_getElem? x r hr]
  rfl

/-- Settles O40: both bytes the fetch reads are among those stored. -/
theorem fetchSeesEarlierStores : Obligations.FetchSeesEarlierStores := by
  intro x r r' s t u hf h hnext hle hmem hpc
  have hx : r'.toNat ≤ x.toNat := hle
  have hin := (inRange_iff _ _).1 (exec_storeRegs_next hf h).1
  have hhi : u.read u.pc.toNat = s.reg r := by
    rw [State.read_congr hmem, hpc]
    exact read_of_exec_storeRegs hf h (show r.toNat ≤ x.toNat by omega)
  have hlo : u.read (u.pc.toNat + 1) = s.reg r' := by
    rw [State.read_congr hmem, hpc, Nat.add_assoc, ← hnext]
    exact read_of_exec_storeRegs hf h hle
  refine ⟨_, fetchWord_of_le (by omega), ?_⟩
  rw [composeWord_toNat, hhi, hlo]

end Sys2Proof.Machine

/-! ## What decodes is well-formed (O3) -/

namespace Sys2Proof

variable {strict : Bool} {w : Word} {i : Instr}

/-- Where the literal reading answers, the unexamined field is as well-formedness asks (R68). -/
theorem unexamined_of_literalReading_ok {u : Nibble} {j : Instr} (h : literalReading strict u w i = .ok j) :
    (!strict || u == 0) = true := by
  obtain ⟨-, -, e⟩ | ⟨rfl | rfl, -⟩ := literalReading_cases strict u w i
  · cases e.symm.trans h
  · rfl
  · exact Bool.or_true _

theorem wellFormedWith_of_decodeGroup0 (hg : groupOf w = 0x0) (h : decodeGroup0 strict w = .ok i) :
    i.wellFormedWith strict = true := by
  simp only [decodeGroup0] at h
  split_ifs at h with hcls hret
  · cases eq_of_literalReading_ok h
    exact unexamined_of_literalReading_ok h
  · cases eq_of_literalReading_ok h
    exact unexamined_of_literalReading_ok h
  · cases h
    have hlow : (fieldNNN w).setWidth 8 = fieldKK w := by rw [← fieldKK_formatA 0x0, formatA_of_group hg]
    simp only [Instr.wellFormedWith, hlow, group0Bytes]
    simpa using ⟨hcls, hret⟩

theorem wellFormedWith_decodeGroup8 : (decodeGroup8 w).wellFormedWith strict = true := by
  simp only [decodeGroup8]
  split_ifs
  case neg => simp_all [Instr.wellFormedWith, group8Nibbles]
  all_goals rfl

theorem wellFormedWith_decodeGroupE : (decodeGroupE w).wellFormedWith strict = true := by
  simp only [decodeGroupE]
  split_ifs
  case neg => simp_all [Instr.wellFormedWith, groupEBytes]
  all_goals rfl

theorem wellFormedWith_decodeGroupF : (decodeGroupF w).wellFormedWith strict = true := by
  simp only [decodeGroupF]
  split_ifs
  case neg => simp_all [Instr.wellFormedWith, groupFBytes]
  all_goals rfl

/-- An instruction that a word decodes to is well-formed (R61, R68): only the group's last row takes the other function
values, and STRICT_DECODE lets through no unexamined field but 0. -/
theorem wellFormedWith_of_decodeWord (h : decodeWord strict w = .ok i) : i.wellFormedWith strict = true := by
  obtain hg | hg | hg | hg | hg | hg | hg | hg | hg | hg | hg | hg | hg | hg | hg | hg := group_cases (groupOf w)
  · exact wellFormedWith_of_decodeGroup0 hg (decodeWord_group0 strict w hg ▸ h)
  · cases (decodeWord_group1 strict w hg).symm.trans h; rfl
  · cases (decodeWord_group2 strict w hg).symm.trans h; rfl
  · cases (decodeWord_group3 strict w hg).symm.trans h; rfl
  · cases (decodeWord_group4 strict w hg).symm.trans h; rfl
  · rw [decodeWord_group5 strict w hg] at h
    cases eq_of_literalReading_ok h; exact unexamined_of_literalReading_ok h
  · cases (decodeWord_group6 strict w hg).symm.trans h; rfl
  · cases (decodeWord_group7 strict w hg).symm.trans h; rfl
  · cases (decodeWord_group8 strict w hg).symm.trans h; exact wellFormedWith_decodeGroup8
  · rw [decodeWord_group9 strict w hg] at h
    cases eq_of_literalReading_ok h; exact unexamined_of_literalReading_ok h
  · cases (decodeWord_groupA strict w hg).symm.trans h; rfl
  · cases (decodeWord_groupB strict w hg).symm.trans h; rfl
  · cases (decodeWord_groupC strict w hg).symm.trans h; rfl
  · cases (decodeWord_groupD strict w hg).symm.trans h; rfl
  · cases (decodeWord_groupE strict w hg).symm.trans h; exact wellFormedWith_decodeGroupE
  · cases (decodeWord_groupF strict w hg).symm.trans h; exact wellFormedWith_decodeGroupF

/-- Settles O3: every format keeps every field, and what the decoder answers is well-formed. -/
theorem encodeInvertsDecode : Obligations.EncodeInvertsDecode :=
  fun _ _ _ h => ⟨encode_of_decodeWord h, wellFormedWith_of_decodeWord h⟩

end Sys2Proof

/-! ## Strict decoding, and the no-op words (O1, O5, O6) -/

namespace Sys2Proof

open Machine

variable {strict : Bool} {w : Word} {i : Instr}

/-- Settles O1. -/
theorem sampleWordsDecode : Obligations.SampleWordsDecode := by
  unfold Obligations.SampleWordsDecode
  decide

/-! ### The literal reading and its refusal (R62, R63, R68) -/

theorem literalReading_true_of_ne {u : Nibble} (h : u ≠ 0) : literalReading true u w i = .error (.refusedWord w) := by
  obtain ⟨-, -, e⟩ | ⟨hc | rfl, -⟩ := literalReading_cases true u w i
  · exact e
  · cases hc
  · exact absurd rfl h

theorem literalReading_zero : literalReading strict 0 w i = .ok i := by
  obtain ⟨-, h, -⟩ | ⟨-, e⟩ := literalReading_cases strict 0 w i
  · exact absurd rfl h
  · exact e

theorem decodeGroup0_false (w : Word) : decodeGroup0 false w = .ok
    (if fieldKK w = 0xE0 then .cls (fieldX w) else if fieldKK w = 0xEE then .ret (fieldX w) else .sys (fieldNNN w)) := by
  simp only [decodeGroup0, literalReading_false]
  split_ifs <;> rfl

theorem decodeWord_true_of_isLiteralWord (h : IsLiteralWord w) : decodeWord true w = .error (.refusedWord w) := by
  obtain ⟨hg, hkk, hx⟩ | ⟨hg | hg, hn⟩ := h
  · obtain hcls | hret : fieldKK w = 0xE0 ∨ fieldKK w = 0xEE := by simpa using hkk
    · simp [decodeWord_group0 _ _ hg, decodeGroup0, hcls, literalReading_true_of_ne hx]
    · simp [decodeWord_group0 _ _ hg, decodeGroup0, hret, literalReading_true_of_ne hx]
  · rw [decodeWord_group5 _ _ hg]
    exact literalReading_true_of_ne hn
  · rw [decodeWord_group9 _ _ hg]
    exact literalReading_true_of_ne hn

/-- The decoder consults STRICT_DECODE in groups 0, 5 and 9 only. -/
theorem decodeWord_eq_of_group (h0 : groupOf w ≠ 0x0) (h5 : groupOf w ≠ 0x5) (h9 : groupOf w ≠ 0x9) :
    decodeWord strict w = decodeWord false w := by
  simp only [decodeWord, h0, h5, h9, if_false]

theorem decodeWord_true_of_not_isLiteralWord (h : ¬ IsLiteralWord w) :
    decodeWord true w = decodeWord false w := by
  simp only [IsLiteralWord, not_or, not_and, not_not] at h
  obtain ⟨hlit0, hlit⟩ := h
  by_cases h0 : groupOf w = 0x0
  · rw [decodeWord_group0 _ _ h0, decodeWord_group0 _ _ h0]
    simp only [decodeGroup0]
    split_ifs with hcls hret
    · simp only [hlit0 h0 (by simp [hcls]), literalReading_zero]
    · simp only [hlit0 h0 (by simp [hret]), literalReading_zero]
    · rfl
  by_cases h5 : groupOf w = 0x5
  · simp only [decodeWord_group5 _ _ h5, hlit (.inl h5), literalReading_zero]
  by_cases h9 : groupOf w = 0x9
  · simp only [decodeWord_group9 _ _ h9, hlit (.inr h9), literalReading_zero]
  exact decodeWord_eq_of_group h0 h5 h9

/-- The cycle that fetches a word its decoder refuses ends with Refused(PC, word) (R68, R73). -/
theorem cycleWith_of_decodeWord_error {s : State} {r : Option Byte} {e : DecodeError} (hrun : s.run = .running)
    (hw : s.fetchWord = some w) (hd : decodeWord strict w = .error e) :
    cycleWith strict r s = .refused (.refusedWord s.pc w) := by
  simp only [cycleWith, hrun, hw, hd]

/-- Settles O5. -/
theorem strictDecodeRefusesTheLiteralWords : Obligations.StrictDecodeRefusesTheLiteralWords := by
  refine ⟨fun w => ⟨fun hg => ?_, fun hg => ?_, fun hg => ?_, decodeWord_true_of_isLiteralWord,
    decodeWord_true_of_not_isLiteralWord⟩, fun r s w hrun hw hlit => ?_⟩
  · rw [decodeWord_group0 _ _ hg, decodeGroup0_false]
  · rw [decodeWord_group5 _ _ hg, literalReading_false]
  · rw [decodeWord_group9 _ _ hg, literalReading_false]
  · exact cycleWith_of_decodeWord_error hrun hw (decodeWord_true_of_isLiteralWord hlit)

/-! ### The no-op words (R67, R79) -/

/-- Under the literal reading no word is illegal (R61, R67). -/
theorem decodeWord_false_total (w : Word) : ∃ i, decodeWord false w = .ok i := by
  obtain hg | hg | hg | hg | hg | hg | hg | hg | hg | hg | hg | hg | hg | hg | hg | hg := group_cases (groupOf w)
  · exact ⟨_, (decodeWord_group0 false w hg).trans (decodeGroup0_false w)⟩
  · exact ⟨_, decodeWord_group1 false w hg⟩
  · exact ⟨_, decodeWord_group2 false w hg⟩
  · exact ⟨_, decodeWord_group3 false w hg⟩
  · exact ⟨_, decodeWord_group4 false w hg⟩
  · exact ⟨_, (decodeWord_group5 false w hg).trans (literalReading_false _ _ _)⟩
  · exact ⟨_, decodeWord_group6 false w hg⟩
  · exact ⟨_, decodeWord_group7 false w hg⟩
  · exact ⟨_, decodeWord_group8 false w hg⟩
  · exact ⟨_, (decodeWord_group9 false w hg).trans (literalReading_false _ _ _)⟩
  · exact ⟨_, decodeWord_groupA false w hg⟩
  · exact ⟨_, decodeWord_groupB false w hg⟩
  · exact ⟨_, decodeWord_groupC false w hg⟩
  · exact ⟨_, decodeWord_groupD false w hg⟩
  · exact ⟨_, decodeWord_groupE false w hg⟩
  · exact ⟨_, decodeWord_groupF false w hg⟩

theorem mem_group8_noOp_iff (n : Nibble) :
    n ∈ ([0x8, 0x9, 0xA, 0xB, 0xC, 0xD, 0xF] : List Nibble) ↔ n ∉ group8Nibbles := by
  revert n; decide

/-- R67's list holds the word of a well-formed instruction exactly when the instruction is a no-op. -/
theorem isNoOp_iff_of_wellFormedWith (h : i.wellFormedWith strict = true) :
    isNoOp i = true ↔ IsNoOpWord (encode i) := by
  simp only [IsNoOpWord, mem_group8_noOp_iff]
  cases i with
  | sys | undefE | undefF | undef8 =>
    simpa [isNoOp, encode, Instr.wellFormedWith, group0Bytes, groupEBytes, groupFBytes] using h
  | _ => simp [isNoOp, encode, group8Nibbles]

theorem exec_of_isNoOp {s : State} (h : isNoOp i = true) : exec i s = .next s := by
  cases i with
  | sys | undef8 | undefE | undefF => rfl
  | _ => cases h

/-- Settles O6: every word is the word of a well-formed instruction. -/
theorem noOpWordsAreExactlyTheListed : Obligations.NoOpWordsAreExactlyTheListed := by
  refine ⟨fun w => ?_, fun i s => exec_of_isNoOp⟩
  obtain ⟨i, hd⟩ := decodeWord_false_total w
  have hiff := isNoOp_iff_of_wellFormedWith (wellFormedWith_of_decodeWord hd)
  rw [encode_of_decodeWord hd] at hiff
  exact ⟨i, hd, hiff⟩

end Sys2Proof

/-! ## The most specific row (O4) -/

namespace Sys2Proof

open Laws

variable {strict : Bool} {w m : Word} {i : Instr} {r q : OpcodeRow}

/-- Every instruction's row is one of the 38. -/
theorem opcodeRow_mem (i : Instr) : opcodeRow i ∈ opcodeTable := by
  cases i <;> simp [opcodeRow, opcodeTable]

theorem accepts_iff : r.accepts w = true ↔ w &&& r.mask = r.value := by
  simp [OpcodeRow.accepts]

/-- A row accepts the words of its instructions (R69). -/
theorem accepts_encode (i : Instr) : (opcodeRow i).accepts (encode i) = true := by
  rw [accepts_iff]
  cases i with
  | sys | jp | call | ldI | jpV0 => exact EncodeRow.formatA_mask _ _
  | seImm | sneImm | ldImm | addImm | rnd | undefE | undefF => exact EncodeRow.formatXK_mask _ _ _
  | seReg | sneReg | drw | undef8 => exact EncodeRow.formatXYN_mask _ _ _ _
  | ldReg | orReg | andReg | xorReg | addReg | subReg | shr | subnReg | shl =>
    exact EncodeRow.formatXYN_mask_function _ _ _ _
  | _ => exact EncodeRow.formatXK_mask_function _ _ _

/-- Rows with the same mask that accept the same word are the same. -/
theorem eq_of_accepts_of_mask_eq (hr : r.accepts w = true) (hq : q.accepts w = true) (hm : r.mask = q.mask) : r = q := by
  rw [accepts_iff] at hr hq
  obtain ⟨v, m⟩ := r
  cases hm
  exact congrArg (OpcodeRow.mk · q.mask) (hr.symm.trans hq)

/-! ### The fields that a mask keeps -/

theorem groupOf_and_of_mask (h : groupOf m = 0xF) : groupOf (w &&& m) = groupOf w := by
  rw [groupOf, BitVec.extractLsb'_and, ← groupOf, ← groupOf, h]
  exact BitVec.and_allOnes

theorem fieldKK_and_of_mask (h : fieldKK m = 0xFF) : fieldKK (w &&& m) = fieldKK w := by
  rw [fieldKK, BitVec.extractLsb'_and, ← fieldKK, ← fieldKK, h]
  exact BitVec.and_allOnes

theorem fieldN_and_of_mask (h : fieldN m = 0xF) : fieldN (w &&& m) = fieldN w := by
  rw [fieldN, BitVec.extractLsb'_and, ← fieldN, ← fieldN, h]
  exact BitVec.and_allOnes

/-! ### The words that a more specific row than their group's claims -/

/-- The mask of the rows that look at a function field: the low nibble in group 8, else the low byte (R62, R64 to R66). -/
def functionMask (g : Nibble) : Word := if g = 0x8 then 0xF00F else 0xF0FF

/-- The function field of a word selects a row more specific than that of its group alone (R62, R64 to R66). -/
def SelectedByFunction (w : Word) : Prop :=
  groupOf w = 0x0 ∧ fieldKK w ∈ group0Bytes ∨ groupOf w = 0x8 ∧ fieldN w ∈ group8Nibbles ∨
  groupOf w = 0xE ∧ fieldKK w ∈ groupEBytes ∨ groupOf w = 0xF ∧ fieldKK w ∈ groupFBytes

theorem groupOf_functionMask (g : Nibble) : groupOf (functionMask g) = 0xF := by
  unfold functionMask
  split <;> decide

/-- A row looks at the group alone, or at the function field that selects it. -/
theorem mask_of_mem : ∀ r ∈ opcodeTable,
    r.mask = 0xF000 ∨ r.mask = functionMask (groupOf r.value) ∧ SelectedByFunction r.value := by
  unfold SelectedByFunction
  decide

/-- The same, said of a word that the row accepts: its mask keeps the fields that it looks at. -/
theorem mask_of_accepts (h : r ∈ opcodeTable) (ha : r.accepts w = true) :
    r.mask = 0xF000 ∨ r.mask = functionMask (groupOf w) ∧ SelectedByFunction w := by
  rw [accepts_iff] at ha
  refine (mask_of_mem r h).imp_right fun ⟨hm, hs⟩ => ?_
  have hg : groupOf r.value = groupOf w := by
    rw [← ha, hm, groupOf_and_of_mask (groupOf_functionMask _)]
  rw [hg] at hm
  refine ⟨hm, ?_⟩
  unfold SelectedByFunction at hs ⊢
  by_cases h8 : groupOf w = 0x8
  · have hn : fieldN r.value = fieldN w := by
      rw [← ha, hm, h8]
      exact fieldN_and_of_mask (by decide)
    simpa [hg, hn, h8] using hs
  · have hkk : fieldKK r.value = fieldKK w := by
      rw [← ha, hm, functionMask, if_neg h8, fieldKK_and_of_mask (by decide)]
    simpa only [hg, hkk, h8, false_and, false_or] using hs

/-- A well-formed instruction that stands in the row of a group alone has no word that the function field selects. -/
theorem not_selectedByFunction_encode (h : i.wellFormedWith strict = true) (hm : (opcodeRow i).mask = 0xF000) :
    ¬ SelectedByFunction (encode i) := by
  unfold SelectedByFunction
  cases i with
  | sys | undef8 | undefE | undefF => simpa [encode, Instr.wellFormedWith] using h
  | jp | call | seImm | sneImm | seReg | ldImm | addImm | sneReg | ldI | jpV0 | rnd | drw => simp [encode]
  | _ => simp [opcodeRow] at hm

/-- A mask that looks at a function field has more 1 bits than one that does not. -/
theorem specificity_lt {g : Nibble} (hr : r.mask = 0xF000) (hq : q.mask = functionMask g) :
    r.specificity < q.specificity := by
  rw [OpcodeRow.specificity, OpcodeRow.specificity, hr, hq, functionMask]
  split <;> decide

/-- Settles O4: a word that no function field selects has one row; one that a function field selects is decoded to it. -/
theorem decodeTakesTheMostSpecificRow : Obligations.DecodeTakesTheMostSpecificRow := by
  intro w i hd
  have ha : (opcodeRow i).accepts w = true := encode_of_decodeWord hd ▸ accepts_encode i
  refine ⟨opcodeRow_mem i, ha, fun r hmem hr => ?_⟩
  obtain hrm | ⟨hrm, hsel⟩ := mask_of_accepts hmem hr <;>
    obtain him | ⟨him, -⟩ := mask_of_accepts (opcodeRow_mem i) ha
  · exact .inl (eq_of_accepts_of_mask_eq hr ha (hrm.trans him.symm))
  · exact .inr (specificity_lt hrm him)
  · have hno := not_selectedByFunction_encode (wellFormedWith_of_decodeWord hd) him
    exact absurd hsel (encode_of_decodeWord hd ▸ hno)
  · exact .inl (eq_of_accepts_of_mask_eq hr ha (hrm.trans him.symm))

end Sys2Proof
/-! ## Reading a line of assembly (O7) -/

namespace Sys2Proof

/-- An instruction of the one operation that a line of assembly stands for, if any (R69, R71); the fields that the line
leaves out are 0. -/
def assembled : String → List AsmOperand → Option Instr
  | "SYS", [.addr nnn] => some (.sys nnn)
  | "CLS", [] => some (.cls 0)
  | "RET", [] => some (.ret 0)
  | "JP", [.addr nnn] => some (.jp nnn)
  | "JP", [.reg _, .addr nnn] => some (.jpV0 nnn)
  | "CALL", [.addr nnn] => some (.call nnn)
  | "SE", [.reg x, .byte kk] => some (.seImm x kk)
  | "SE", [.reg x, .reg y] => some (.seReg x y 0)
  | "SNE", [.reg x, .byte kk] => some (.sneImm x kk)
  | "SNE", [.reg x, .reg y] => some (.sneReg x y 0)
  | "ADD", [.reg x, .byte kk] => some (.addImm x kk)
  | "ADD", [.reg x, .reg y] => some (.addReg x y)
  | "ADD", [.i, .reg x] => some (.addI x)
  | "OR", [.reg x, .reg y] => some (.orReg x y)
  | "AND", [.reg x, .reg y] => some (.andReg x y)
  | "XOR", [.reg x, .reg y] => some (.xorReg x y)
  | "SUB", [.reg x, .reg y] => some (.subReg x y)
  | "SUBN", [.reg x, .reg y] => some (.subnReg x y)
  | "SHR", [.reg x] => some (.shr x 0)
  | "SHR", [.reg x, .reg y] => some (.shr x y)
  | "SHL", [.reg x] => some (.shl x 0)
  | "SHL", [.reg x, .reg y] => some (.shl x y)
  | "RND", [.reg x, .byte kk] => some (.rnd x kk)
  | "DRW", [.reg x, .reg y, .count n] => some (.drw x y n)
  | "SKP", [.reg x] => some (.skp x)
  | "SKNP", [.reg x] => some (.sknp x)
  | "LD", [.reg x, .byte kk] => some (.ldImm x kk)
  | "LD", [.reg x, .reg y] => some (.ldReg x y)
  | "LD", [.i, .addr nnn] => some (.ldI nnn)
  | "LD", [.reg x, .dt] => some (.ldFromDelay x)
  | "LD", [.reg x, .k] => some (.ldKey x)
  | "LD", [.dt, .reg x] => some (.ldDelay x)
  | "LD", [.st, .reg x] => some (.ldSound x)
  | "LD", [.f, .reg x] => some (.ldFont x)
  | "LD", [.b, .reg x] => some (.ldBcd x)
  | "LD", [.atI, .reg x] => some (.storeRegs x)
  | "LD", [.reg x, .atI] => some (.loadRegs x)
  | _, _ => none

/-- The line of an instruction, read again, names an operation of the same row. -/
theorem opcodeRow_assembled {i : Instr} {a : String × List AsmOperand} (h : assembly i = some a) :
    (assembled a.1 a.2).map opcodeRow = some (opcodeRow i) := by
  cases i with
  | shr x y | shl x y =>
    cases h
    unfold shiftOperands
    split <;> rfl
  | undef8 | undefE | undefF => cases h
  | _ => cases h; rfl

/-- Settles O7: the line alone says which operation it is. -/
theorem assemblyNamesOneOperation : Obligations.AssemblyNamesOneOperation :=
  fun _ _ _ hi hj => Option.some.inj ((opcodeRow_assembled hi).symm.trans (opcodeRow_assembled hj))

end Sys2Proof
/-! ## The outcome of a cycle (O9, O11, O13, O14) -/

namespace Sys2Proof.Machine

variable {s t : State} {strict : Bool} {r : Option Byte} {w : Word} {i : Instr}

/-- Settles O9. -/
theorem haltedCycleChangesNothing : Obligations.HaltedCycleChangesNothing := by
  intro strict r s hrun
  have hcycle : cycleWith strict r s = .next (s.answer .halted) := by simp only [cycleWith, hrun]
  exact ⟨_, hcycle, rfl, s.answer_frame _, rfl⟩

/-! ### Every step answers a next state (O11) -/

/-- Where every word decodes, a cycle answers a next state. -/
theorem cycleWith_total (hd : ∀ w, ∃ i, decodeWord strict w = .ok i) (r : Option Byte) (s : State) :
    ∃ t, cycleWith strict r s = .next t := by
  obtain ⟨-, e⟩ | ⟨-, -, e⟩ | ⟨w, d, -, -, herr, -⟩ | ⟨w, i, -, -, -, e⟩ := cycleWith_cases s strict r
  · exact ⟨_, e⟩
  · exact ⟨_, e⟩
  · obtain ⟨i, hok⟩ := hd w
    cases herr.symm.trans hok
  · obtain ⟨t, ht⟩ := exec_total i (s.beginCycle r)
    exact ⟨_, e.trans (ht ▸ finishCycle_next i t)⟩

theorem transact_total {p : Parameters} (hd : ∀ w, ∃ i, decodeWord p.strictDecode w = .ok i) (q : Transaction)
    (s : State) : ∃ t, transact p q s = .next t := by
  cases q with
  | cycle b => exact cycleWith_total hd _ s
  | _ => exact ⟨_, rfl⟩

/-- Settles O11: with STRICT_DECODE false every word decodes, and every transaction answers. -/
theorem everyStepAnswersANextState : Obligations.EveryStepAnswersANextState := by
  intro s
  obtain ⟨-, e⟩ | ⟨q, rest, -, e⟩ := step_cases s
  · exact e ▸ cycleWith_total decodeWord_false_total none s
  · exact e ▸ transact_total (p := parameters) decodeWord_false_total q _

/-! ### Retired or faulted (R73, R126) -/

/-- Fault conditions read I and SP, which the start of a cycle leaves alone. -/
theorem faultOf_beginCycle (i : Instr) (s : State) (r : Option Byte) : faultOf i (s.beginCycle r) = faultOf i s := rfl

/-- All that the cycle of a decoded instruction can answer: it retires the instruction, or takes its fault. -/
theorem cycleWith_decoded_cases (hrun : s.run = .running) (hw : s.fetchWord = some w)
    (hd : decodeWord strict w = .ok i) (h : cycleWith strict r s = .next t) :
    (faultOf i s = none ∧ ∃ u, exec i (s.beginCycle r) = .next u ∧ t = u.answer (.retired (frameReady i))) ∨
    ∃ k n, faultOf i s = some (k, n) ∧
      t = ((s.beginCycle r).raiseFault k i n).answer (.faulted ⟨k, s.pc, some w, n⟩) := by
  obtain ⟨u, he⟩ := exec_total i (s.beginCycle r)
  obtain rfl := Host.Outcome.next.inj (h.symm.trans (cycleWith_of_decodeWord hrun hw hd he))
  obtain hf | ⟨k, n, hf, rfl⟩ := exec_cases he
  · refine .inl ⟨hf, u, he, ?_⟩
    rw [cycleReply_running ((exec_keeps_run hf he).trans hrun)]
  · have hback : (s.beginCycle r).pc - 2 = s.pc := BitVec.add_sub_cancel _ _
    have hrec : ((s.beginCycle r).raiseFault k i n).fault = some ⟨k, s.pc, some w, n⟩ := by
      rw [State.raiseFault_eq, State.takeFault_fault, hback, encode_of_decodeWord hd]
    exact .inr ⟨k, n, hf, by rw [cycleReply_halted rfl hrec]⟩

theorem frameReady_iff : frameReady i = true ↔ (∃ u, i = .cls u) ∨ ∃ x y n, i = .drw x y n := by
  cases i <;> simp [frameReady]

/-- Settles O13: a cycle that retires answers with the frame-ready of its instruction, and no other cycle retires. -/
theorem frameReadyIsForClearAndDraw : Obligations.FrameReadyIsForClearAndDraw := by
  intro strict r s t h
  constructor
  · intro hrep
    obtain ⟨-, e⟩ | ⟨hrun, hw, -⟩ | ⟨w, d, -, -, -, e⟩ | ⟨w, i, hrun, hw, hd, -⟩ := cycleWith_cases s strict r
    · cases e.symm.trans h
      cases hrep
    · cases (cycleWith_of_fetchWord_none strict r hrun hw).symm.trans h
      cases hrep
    · cases e.symm.trans h
    · obtain ⟨hf, u, -, rfl⟩ | ⟨k, n, -, rfl⟩ := cycleWith_decoded_cases hrun hw hd h
      · have hready : frameReady i = true := Reply.retired.inj (Option.some.inj hrep)
        exact ⟨hrun, w, i, hw, hd, hf, frameReady_iff.1 hready⟩
      · cases hrep
  · rintro ⟨hrun, w, i, hw, hd, hf, hi⟩
    obtain ⟨-, u, -, rfl⟩ | ⟨k, n, hfault, -⟩ := cycleWith_decoded_cases hrun hw hd h
    · rw [State.answer_reply, frameReady_iff.2 hi]
    · cases hf.symm.trans hfault

/-! ### Control flow (O14) -/

/-- An instruction that does not write PC leaves the post-fetch PC. -/
theorem exec_keeps_pc (hf : faultOf i s = none) (h : exec i s = .next t) (hw : ¬ writesOf i s .pc) : t.pc = s.pc :=
  exec_frame hf h .pc hw

theorem addressOperand_toNat (nnn : Addr12) : (addressOperand nnn).toNat = nnn.toNat := by
  have := nnn.isLt
  simp only [addressOperand, BitVec.toNat_setWidth]
  omega

theorem indexedTarget_toNat (s : State) (nnn : Addr12) :
    (s.indexedTarget nnn).toNat = nnn.toNat + (s.reg 0).toNat := by
  have := nnn.isLt
  have := (s.reg 0).isLt
  simp only [State.indexedTarget, BitVec.toNat_ofNat]
  omega

theorem skipIf_beginCycle_pc (s : State) (r : Option Byte) (c : Bool) :
    ((s.beginCycle r).skipIf c).pc = s.pc + 2 ∨ ((s.beginCycle r).skipIf c).pc = s.pc + 4 := by
  cases c
  · exact .inl rfl
  · exact .inr (BitVec.add_assoc s.pc 2 2)

/-- Settles O14: the instructions that write PC, each by its effect; the others leave the post-fetch PC. -/
theorem controlFlowEffects : Obligations.ControlFlowEffects := by
  intro strict r s t w i hrun hw hd hf h
  obtain ⟨-, u, he, rfl⟩ | ⟨k, n, hfault, -⟩ := cycleWith_decoded_cases hrun hw hd h
  swap
  · cases hf.symm.trans hfault
  rw [← faultOf_beginCycle i s r] at hf
  rw [State.answer_pc]
  cases i with
  | jp nnn => cases he; exact addressOperand_toNat nnn
  | call nnn =>
    obtain ⟨k, -, rfl⟩ := exec_call_next hf he
    exact addressOperand_toNat nnn
  | jpV0 nnn => cases he; exact indexedTarget_toNat s nnn
  | ret =>
    obtain ⟨k, hk, rfl⟩ := exec_ret_next hf he
    exact ⟨k, hk, rfl⟩
  | seImm | sneImm | seReg | sneReg | skp | sknp => cases he; exact skipIf_beginCycle_pc s r _
  | ldKey =>
    obtain ⟨hk, rfl⟩ | ⟨k, hk, rfl⟩ := exec_ldKey_next he
    · exact (if_pos hk).mpr (BitVec.add_sub_cancel _ _)
    · exact (if_neg (Option.ne_none_iff_exists'.2 ⟨k, hk⟩)).mpr rfl
  | _ => exact exec_keeps_pc hf he (by simp [writesOf, These, TheseBytes])

end Sys2Proof.Machine

/-! ## The effect of jumps, calls, returns and skips (O22 to O26) -/

namespace Sys2Proof.Machine

variable {s : State}

/-- What taking a fault leaves: the halted core, with the record of the executing instruction, and the rest as it was
(R126). -/
theorem exec_faults {i : Instr} {k : FaultKind} {n : Nat} (hf : faultOf i s = some (k, n)) :
    ∃ t, exec i s = .next t ∧ t.run = .halted ∧ t.pc = s.pc - 2 ∧
      t.fault = some ⟨k, s.pc - 2, some (encode i), n⟩ ∧ Frame s t (These [.pc, .run, .fault]) :=
  ⟨_, exec_of_faultOf_some hf, rfl, rfl, rfl, s.takeFault_frame _ _ _ _⟩

/-! ### Calls and returns -/

/-- The row of CALL as a list: the one entry it writes is the entry at SP. -/
theorem these_of_writesOf_call {nnn : Addr12} {k : Fin 16} (hk : k.val = s.sp.val) (p : Part)
    (hp : writesOf (.call nnn) s p) : These [.entry k, .sp, .pc] p := by
  obtain rfl | rfl | ⟨j, hj, rfl⟩ := hp
  · simp [These]
  · simp [These]
  · obtain rfl : j = k := Fin.ext (hj.trans hk.symm)
    simp [These]

/-- Settles O23: CALL writes the entry at SP, or raises its fault where no entry is free. -/
theorem callPushesTheReturnAddress : Obligations.CallPushesTheReturnAddress := by
  intro nnn s
  refine ⟨fun k hk => ?_, fun hfull => exec_faults (if_pos hfull)⟩
  have hf : faultOf (.call nnn) s = none := if_neg (hk ▸ k.isLt.ne)
  obtain ⟨t, ht⟩ := exec_total (.call nnn) s
  have hframe := (exec_frame hf ht).mono (these_of_writesOf_call hk)
  obtain ⟨j, hj, rfl⟩ := exec_call_next hf ht
  obtain rfl : j = k := Fin.ext (hj.trans hk.symm)
  refine ⟨_, ht, ?_, congrArg (· + 1) hj, addressOperand_toNat nnn, hframe⟩
  exact (stackEntry_set s.stack j j s.pc).trans (if_pos rfl)

/-- Settles O24: RET loads PC from the topmost entry in use, or raises its fault where none is. -/
theorem returnPopsTheProgramCounter : Obligations.ReturnPopsTheProgramCounter := by
  intro u s
  refine ⟨fun k hk => ?_, fun hempty => exec_faults (if_pos hempty)⟩
  have hf : faultOf (.ret u) s = none := if_neg (hk ▸ k.val.succ_ne_zero)
  obtain ⟨t, ht⟩ := exec_total (.ret u) s
  have hframe := (exec_frame hf ht).mono (w := These [.sp, .pc]) (by simp [writesOf, These, or_comm])
  obtain ⟨j, hj, rfl⟩ := exec_ret_next hf ht
  obtain rfl : j = k := Fin.ext (Nat.succ.inj (hj.trans hk.symm))
  exact ⟨_, ht, rfl, rfl, hframe⟩

/-- Settles O25: the entry that CALL writes is the one that the RET of the next cycle loads. -/
theorem returnUndoesCall : Obligations.ReturnUndoesCall := by
  intro nnn u r s t hs hcall
  obtain ⟨t', hcall', hentry, hsp, -, -⟩ := (callPushesTheReturnAddress nnn s).1 ⟨s.sp.val, hs⟩ rfl
  obtain rfl : t = t' := Host.Outcome.next.inj (hcall.symm.trans hcall')
  obtain ⟨w, hret, hwsp, hwpc, -⟩ := (returnPopsTheProgramCounter u (t.beginCycle r)).1 ⟨s.sp.val, hs⟩ hsp.symm
  exact ⟨w, hret, hwpc.trans hentry, Fin.ext hwsp⟩

/-! ### Jumps -/

/-- Settles O22. -/
theorem jumpsLoadTheProgramCounter : Obligations.JumpsLoadTheProgramCounter :=
  fun nnn s => ⟨⟨_, rfl, addressOperand_toNat nnn, s.setPc_frame _⟩, ⟨_, rfl, indexedTarget_toNat s nnn, s.setPc_frame _⟩⟩

/-! ### Skips -/

theorem skipIf_beq_pc (s : State) (a b : Byte) : (s.skipIf (a == b)).pc = if a = b then s.pc + 2 else s.pc := by
  simp only [State.skipIf_pc, beq_iff_eq]

theorem skipIf_bne_pc (s : State) (a b : Byte) : (s.skipIf (a != b)).pc = if a = b then s.pc else s.pc + 2 := by
  simp only [State.skipIf_pc, bne_iff_ne, ite_not]

/-- Settles O26: SE skips on equal values, SNE on different ones, immediate or in a register. -/
theorem skipsAddTwoOnTheirCondition : Obligations.SkipsAddTwoOnTheirCondition := by
  intro x y kk u s
  exact ⟨⟨_, rfl, s.skipIf_frame _, skipIf_beq_pc s _ _⟩, ⟨_, rfl, s.skipIf_frame _, skipIf_bne_pc s _ _⟩,
    ⟨_, rfl, s.skipIf_frame _, skipIf_beq_pc s _ _⟩, ⟨_, rfl, s.skipIf_frame _, skipIf_bne_pc s _ _⟩⟩

end Sys2Proof.Machine

/-! ## The register and ALU operations (O28 to O34) -/

namespace Sys2Proof.Machine

/-! ### The results of the arithmetic as numbers -/

theorem addResult_toNat (a b : Byte) : (addResult a b).toNat = (a.toNat + b.toNat) % 256 :=
  BitVec.toNat_ofNat _ 8

theorem subResult_toNat (a b : Byte) : (subResult a b).toNat = (a.toNat + 256 - b.toNat) % 256 := by
  have hb := b.isLt
  rw [subResult, BitVec.toNat_ofInt]
  omega

theorem shrResult_toNat (a : Byte) : (shrResult a).toNat = a.toNat / 2 := by
  rw [shrResult, BitVec.toNat_ushiftRight, Nat.shiftRight_eq_div_pow, Nat.pow_one]

theorem shlResult_toNat (a : Byte) : (shlResult a).toNat = a.toNat * 2 % 256 := by
  rw [shlResult, BitVec.toNat_shiftLeft, Nat.shiftLeft_eq, Nat.pow_one]

theorem flag_carryOut (a b : Byte) : (if carryOut a b then 1 else 0) = if a.toNat + b.toNat > 255 then 1 else 0 := by
  simp only [carryOut, decide_eq_true_eq]

theorem flag_noBorrow (a b : Byte) : (if noBorrow a b then 1 else 0) = if a.toNat ≥ b.toNat then 1 else 0 := by
  simp only [noBorrow, decide_eq_true_eq, ge_iff_le]

/-! ### Operations that write one register -/

/-- Settles O28. -/
theorem loadsPutTheirValueInTheRegister : Obligations.LoadsPutTheirValueInTheRegister := by
  intro x y kk s
  exact ⟨⟨_, rfl, s.reg_setReg_self x _, s.setReg_frame x _⟩, ⟨_, rfl, s.reg_setReg_self x _, s.setReg_frame x _⟩,
    ⟨_, rfl, s.reg_setReg_self x _, s.setReg_frame x _⟩⟩

/-- Settles O29. -/
theorem addImmediateWrapsWithoutAFlag : Obligations.AddImmediateWrapsWithoutAFlag := by
  intro x kk s
  refine ⟨_, rfl, ?_, s.setReg_frame x _⟩
  rw [State.reg_setReg_self, addResult_toNat]

/-- Settles O30: the register holds the word operation on the old operands, which acts on each bit alone. -/
theorem logicActsBitByBitWithoutAFlag : Obligations.LogicActsBitByBitWithoutAFlag := by
  intro x y s
  refine ⟨⟨_, rfl, s.setReg_frame x _, fun k _ => ?_⟩, ⟨_, rfl, s.setReg_frame x _, fun k _ => ?_⟩,
    ⟨_, rfl, s.setReg_frame x _, fun k _ => ?_⟩⟩
  · rw [State.reg_setReg_self, BitVec.getLsbD_or]
  · rw [State.reg_setReg_self, BitVec.getLsbD_and]
  · rw [State.reg_setReg_self, BitVec.getLsbD_xor]

theorem State.reg_countDraw (s : State) (r : Reg) : s.countDraw.reg r = s.reg r := rfl

/-- Settles O34: the byte drawn is the one the host named, if it named one. -/
theorem randomByteIsMasked : Obligations.RandomByteIsMasked := by
  intro x kk s
  refine ⟨_, s.drawByte, rfl, fun b hb => ?_, fun k _ => ?_, exec_frame (i := .rnd x kk) rfl rfl⟩
  · rw [State.drawByte, hb, Option.getD_some]
  · rw [State.reg_countDraw, State.reg_setReg_self, BitVec.getLsbD_and]

/-! ### Operations that write a register and then the flag -/

/-- What a write of a register and then of the flag leaves (R89), given both values as numbers: the flag is what VF holds
also where it is the register written. -/
theorem setRegThenFlag_leaves (s : State) (x : Reg) {b : Byte} {c : Bool} {m f : Nat} (hb : b.toNat = m)
    (hc : (if c then 1 else 0) = f) :
    Frame s (s.setRegThenFlag x b c) (These [.reg x, .reg vF]) ∧
      (x ≠ vF → ((s.setRegThenFlag x b c).reg x).toNat = m) ∧ ((s.setRegThenFlag x b c).reg vF).toNat = f := by
  refine ⟨s.setRegThenFlag_frame x b c, fun hx => ?_, (reg_vF_setRegThenFlag s x b c).trans hc⟩
  rw [State.reg_setRegThenFlag, if_neg hx, if_pos rfl, hb]

/-- Settles O31. -/
theorem addLeavesSumThenCarry : Obligations.AddLeavesSumThenCarry :=
  fun x _ s => ⟨_, rfl, setRegThenFlag_leaves s x (addResult_toNat _ _) (flag_carryOut _ _)⟩

/-- Settles O32: SUBN is SUB with the operands exchanged. -/
theorem subtractLeavesDifferenceThenNoBorrow : Obligations.SubtractLeavesDifferenceThenNoBorrow :=
  fun x _ s => ⟨⟨_, rfl, setRegThenFlag_leaves s x (subResult_toNat _ _) (flag_noBorrow _ _)⟩,
    ⟨_, rfl, setRegThenFlag_leaves s x (subResult_toNat _ _) (flag_noBorrow _ _)⟩⟩

/-- Settles O33. -/
theorem shiftsLeaveTheBitShiftedOut : Obligations.ShiftsLeaveTheBitShiftedOut :=
  fun x _ s => ⟨⟨_, rfl, setRegThenFlag_leaves s x (shrResult_toNat _) (flag_shrOut _)⟩,
    ⟨_, rfl, setRegThenFlag_leaves s x (shlResult_toNat _) (flag_shlOut _)⟩⟩

end Sys2Proof.Machine

/-! ## The index register and memory (O35 to O39) -/

namespace Sys2Proof.Machine

variable {s t : State} {i : Instr} {n : Nat}

/-! ### The index register -/

theorem glyphAddress_toNat (b : Byte) : (glyphAddress b).toNat = 0x050 + 5 * (b.toNat % 16) := by
  simp only [glyphAddress, Config.fontBase, BitVec.toNat_ofNat]
  omega

/-- Settles O35. -/
theorem indexRegisterOperations : Obligations.IndexRegisterOperations :=
  fun nnn _ s => ⟨⟨_, rfl, addressOperand_toNat nnn, s.setI_frame _⟩, ⟨_, rfl, BitVec.toNat_ofNat _ 16, s.setI_frame _⟩,
    ⟨_, rfl, glyphAddress_toNat _, s.setI_frame _⟩⟩

/-! ### The range check of an access from I to I + n (R48) -/

/-- The fault condition of an instruction that accesses memory from I to I + n, as `faultOf` states it. -/
def AccessesUpTo (i : Instr) (s : State) (n : Nat) : Prop :=
  faultOf i s = if inRange s.i.toNat (n + 1) then none else some (.memoryBounds, max s.i.toNat 0x1000)

theorem inRange_succ (a n : Nat) : inRange a (n + 1) = true ↔ a + n ≤ 0xFFF := by
  rw [inRange_iff]
  omega

/-- An access that stays in memory takes no fault: it answers a state that keeps all but the instruction's row. -/
theorem AccessesUpTo.exec_next (ha : AccessesUpTo i s n) (h : s.i.toNat + n ≤ 0xFFF) :
    faultOf i s = none ∧ ∃ t, exec i s = .next t ∧ Frame s t (writesOf i s) := by
  have hf : faultOf i s = none := ha.trans (if_pos ((inRange_succ _ _).2 h))
  obtain ⟨t, ht⟩ := exec_total i s
  exact ⟨hf, t, ht, exec_frame hf ht⟩

/-- An access that leaves memory takes MemoryBounds, and nothing else happens. -/
theorem AccessesUpTo.exec_faults (ha : AccessesUpTo i s n) (h : 0xFFF < s.i.toNat + n) :
    ∃ t, exec i s = .next t ∧ t.fault = some ⟨.memoryBounds, s.pc - 2, some (encode i), max s.i.toNat 0x1000⟩ ∧
      t.run = .halted ∧ t.pc = s.pc - 2 ∧ Frame s t (These [.pc, .run, .fault]) := by
  have hf : faultOf i s = some (.memoryBounds, max s.i.toNat 0x1000) :=
    ha.trans (if_neg fun hr => absurd ((inRange_succ _ _).1 hr) h.not_ge)
  obtain ⟨t, ht, hrun, hpc, hfault, hframe⟩ := Machine.exec_faults hf
  exact ⟨t, ht, hfault, hrun, hpc, hframe⟩

/-! ### The decimal digits -/

/-- The hundreds, tens and ones digit of a byte, each of which fits in a byte. -/
theorem bcdDigits_toNat (b : Byte) : (bcdDigits b).map BitVec.toNat = [b.toNat / 100, b.toNat / 10 % 10, b.toNat % 10] := by
  have hb := b.isLt
  simp only [bcdDigits, List.map_cons, List.map_nil, BitVec.toNat_ofNat, List.cons.injEq, and_true]
  omega

/-- After LD B the byte at I + k is the k-th of the digits of Vx, hundreds first (R106). -/
theorem read_of_exec_ldBcd {x : Reg} {k d : Nat} (hf : faultOf (.ldBcd x) s = none) (h : exec (.ldBcd x) s = .next t)
    (hd : [(s.reg x).toNat / 100, (s.reg x).toNat / 10 % 10, (s.reg x).toNat % 10][k]? = some d) :
    (t.read (s.i.toNat + k)).toNat = d := by
  rw [← bcdDigits_toNat, List.getElem?_map, Option.map_eq_some_iff] at hd
  obtain ⟨b, hb, rfl⟩ := hd
  obtain ⟨-, rfl⟩ := exec_ldBcd_next hf h
  rw [State.read, Memory.read_writeBytes, if_pos (Nat.le_add_right _ _), Nat.add_sub_cancel_left, hb, Option.getD_some]

/-- Settles O36. -/
theorem bcdStoresThreeDigits : Obligations.BcdStoresThreeDigits := by
  intro x s
  have ha : AccessesUpTo (.ldBcd x) s 2 := rfl
  refine ⟨fun hin => ?_, ha.exec_faults⟩
  obtain ⟨hf, t, ht, hframe⟩ := ha.exec_next hin
  exact ⟨t, ht, read_of_exec_ldBcd (k := 0) hf ht rfl, read_of_exec_ldBcd (k := 1) hf ht rfl,
    read_of_exec_ldBcd (k := 2) hf ht rfl, hframe⟩

/-! ### Registers to memory and back -/

/-- Settles O37. -/
theorem registersAreStoredFromTheIndex : Obligations.RegistersAreStoredFromTheIndex := by
  intro x s
  have ha : AccessesUpTo (.storeRegs x) s x.toNat := rfl
  refine ⟨fun hin => ?_, ha.exec_faults⟩
  obtain ⟨hf, t, ht, hframe⟩ := ha.exec_next hin
  exact ⟨t, ht, fun r hr => read_of_exec_storeRegs hf ht hr, hframe⟩

/-- After LD Vx, [I] the register Vr is the byte at I + r, for every r up to x (R108). -/
theorem reg_of_exec_loadRegs {x r : Reg} (hf : faultOf (.loadRegs x) s = none)
    (h : exec (.loadRegs x) s = .next t) (hr : r ≤ x) : t.reg r = s.read (s.i.toNat + r.toNat) := by
  have hlt : r.toNat < x.toNat + 1 := Nat.lt_succ_of_le hr
  obtain rfl := exec_loadRegs_next hf h
  rw [State.reg_setRegs, List.getD_eq_getElem?_getD, List.getElem?_map, List.getElem?_range hlt]
  rfl

/-- Settles O38. -/
theorem registersAreLoadedFromTheIndex : Obligations.RegistersAreLoadedFromTheIndex := by
  intro x s
  have ha : AccessesUpTo (.loadRegs x) s x.toNat := rfl
  refine ⟨fun hin => ?_, ha.exec_faults⟩
  obtain ⟨hf, t, ht, hframe⟩ := ha.exec_next hin
  exact ⟨t, ht, fun r hr => reg_of_exec_loadRegs hf ht hr, hframe⟩

/-- Settles O39: the load takes no fault either, because the store leaves I, and it reads the bytes that were stored. -/
theorem loadUndoesStore : Obligations.LoadUndoesStore := by
  intro x s t u w hf hstore hu hload r hr
  have hi : u.i = s.i := (congrArg State.i hu).trans (exec_frame hf hstore .i (by simp [writesOf, TheseBytes]))
  have hmem : u.mem = t.mem := by rw [hu]
  have hfu : faultOf (.loadRegs x) u = none := by
    rw [← hf, faultOf, faultOf, hi]
  calc w.reg r
    _ = u.read (u.i.toNat + r.toNat) := reg_of_exec_loadRegs hfu hload hr
    _ = t.read (s.i.toNat + r.toNat) := by rw [hi, State.read_congr hmem]
    _ = s.reg r := read_of_exec_storeRegs hf hstore hr

end Sys2Proof.Machine

/-! ## The display (O41 to O43) -/

namespace Sys2Proof.Machine

variable {s t : State} {x y : Reg} {n : Nibble}

/-- Settles O41. CLS takes no fault. -/
theorem clearUnsetsEveryCell : Obligations.ClearUnsetsEveryCell :=
  fun _ s => ⟨_, rfl, Display.cell_blank, s.setDisplay_frame _⟩

/-! ### The effect of one draw -/

theorem inRange_nibble_iff (a : Nat) (n : Nibble) : inRange a n.toNat = true ↔ n = 0 ∨ a + n.toNat - 1 ≤ 0xFFF := by
  simp only [inRange, Config.lastAddress, Bool.or_eq_true, beq_iff_eq, decide_eq_true_eq, ← BitVec.toNat_inj,
    BitVec.ofNat_eq_ofNat, BitVec.toNat_ofNat, Nat.zero_mod]

/-- A draw that takes no fault leaves the sprite's picture flipped, and in VF whether one of its cells was set
(R112, R114). -/
theorem exec_drw_flips (hf : faultOf (.drw x y n) s = none) (h : exec (.drw x y n) s = .next t) :
    ∃ c, Drawing.Flips (s.display, false) (t.display, c) (s.spriteSets x y n) ∧ t.reg vF = flagByte c := by
  obtain rfl := exec_drw_next hf h
  exact ⟨_, drawing_flips s x y n, State.reg_setReg_self _ vF _⟩

/-- A flag that says whether `P` holds, as VF holds it. -/
theorem flagByte_of_iff {c : Bool} {P : Prop} (h : c = true ↔ P) :
    (P → flagByte c = 1) ∧ (¬ P → flagByte c = 0) := by
  refine ⟨fun hp => ?_, fun hp => ?_⟩
  · rw [h.2 hp]; rfl
  · rw [Bool.eq_false_iff.2 (mt h.1 hp)]; rfl

/-- The collision of a drawing that starts with none is that of its own cells. -/
theorem Drawing.Flips.collision_iff {d e : Display} {c : Bool} {sets : Fin 64 → Fin 32 → Prop}
    (h : Drawing.Flips (d, false) (e, c) sets) : c = true ↔ ∃ cx cy, sets cx cy ∧ d.cell cx cy = true :=
  h.collision.trans (or_iff_right Bool.false_ne_true)

/-- Settles O42: in range, the effect of one draw; out of range, what taking a fault leaves. -/
theorem drawFlipsTheSpritePicture : Obligations.DrawFlipsTheSpritePicture := by
  intro x y n s
  have hrange := inRange_nibble_iff s.i.toNat n
  refine ⟨fun hin => ?_, fun hn hout => ?_⟩
  · have hf : faultOf (.drw x y n) s = none := if_pos (hrange.2 hin)
    obtain ⟨t, ht⟩ := exec_total (.drw x y n) s
    obtain ⟨c, hflips, hvF⟩ := exec_drw_flips hf ht
    obtain ⟨hone, hzero⟩ := flagByte_of_iff hflips.collision_iff
    exact ⟨t, ht, fun _ _ => hflips.flipped, fun _ _ => hflips.kept, hvF ▸ hone, hvF ▸ hzero, exec_frame hf ht⟩
  · have hnot : ¬ inRange s.i.toNat n.toNat = true := fun hr => (hrange.1 hr).elim hn hout.not_ge
    obtain ⟨t, ht, hrun, hpc, hfault, hframe⟩ := exec_faults (i := .drw x y n) (if_neg hnot)
    exact ⟨t, ht, hfault, hrun, hpc, hframe⟩

/-! ### Two draws in a row -/

/-- A draw leaves its own sprite's picture, where it does not write its coordinates. -/
theorem spriteSets_of_exec_drw (hx : x ≠ vF) (hy : y ≠ vF) (hf : faultOf (.drw x y n) s = none)
    (h : exec (.drw x y n) s = .next t) : t.spriteSets x y n = s.spriteSets x y n := by
  have hframe := exec_frame hf h
  have hi : t.i = s.i := hframe .i (by simp [writesOf])
  have hregx : t.reg x = s.reg x := hframe (.reg x) (by simp [writesOf, hx])
  have hregy : t.reg y = s.reg y := hframe (.reg y) (by simp [writesOf, hy])
  have hread (a : Nat) : t.read a = s.read a := hframe (.byte a) (by simp [writesOf])
  funext cx cy
  simp only [State.spriteSets, hi, hregx, hregy, hread]

theorem spriteSets_beginCycle (s : State) (r : Option Byte) (x y : Reg) (n : Nibble) :
    (s.beginCycle r).spriteSets x y n = s.spriteSets x y n := rfl

/-- Flipping the same cells twice restores the display. -/
theorem Drawing.Flips.restores {p q p' q' : Drawing} {sets : Fin 64 → Fin 32 → Prop} (hp : p.Flips q sets)
    (hq : p'.Flips q' sets) (hd : p'.1 = q.1) : q'.1 = p.1 := by
  refine Display.ext_cell fun cx cy => ?_
  by_cases hs : sets cx cy
  · rw [hq.flipped hs, hd, hp.flipped hs, Bool.not_not]
  · rw [hq.kept hs, hd, hp.kept hs]

/-- Settles O43: the second draw flips the same cells back, and one of them is set before it exactly where it was unset
before the first. -/
theorem drawingTwiceRestoresTheDisplay : Obligations.DrawingTwiceRestoresTheDisplay := by
  intro x y n r s t hx hy hf ht
  have hi : t.i = s.i := exec_frame hf ht .i (by simp [writesOf])
  have hf' : faultOf (.drw x y n) (t.beginCycle r) = none := by
    rw [faultOf_beginCycle, ← hf, faultOf, faultOf, hi]
  obtain ⟨w, hw⟩ := exec_total (.drw x y n) (t.beginCycle r)
  obtain ⟨_, hfirst, -⟩ := exec_drw_flips hf ht
  obtain ⟨c, hsecond, hvF⟩ := exec_drw_flips hf' hw
  rw [spriteSets_beginCycle, spriteSets_of_exec_drw hx hy hf ht] at hsecond
  have hc : c = true ↔ ∃ cx cy, s.spriteSets x y n cx cy ∧ s.cell cx cy = false := by
    rw [hsecond.collision_iff]
    refine exists_congr fun cx => exists_congr fun cy => and_congr_right fun hset => ?_
    have hflip : (t.beginCycle r).display.cell cx cy = !s.cell cx cy := hfirst.flipped hset
    rw [hflip, Bool.not_eq_true']
  obtain ⟨hone, hzero⟩ := flagByte_of_iff hc
  exact ⟨w, hw, hfirst.restores hsecond rfl, hvF ▸ hone, hvF ▸ hzero⟩

end Sys2Proof.Machine

/-! ## Keys and timers (O27, O44, O45) -/

namespace Sys2Proof.Machine

variable {s : State}

theorem keyByte_toNat (k : Nibble) : (keyByte k).toNat = k.toNat :=
  BitVec.toNat_setWidth_of_le (by decide)

/-- The key of a latch that holds one is compared with the whole byte, and an empty latch matches none (R117, R118). -/
theorem keyIs_iff {b : Byte} : s.keyIs b = true ↔ ∃ k : Nibble, s.key = some k ∧ k.toNat = b.toNat := by
  cases h : s.key with
  | none => simp [State.keyIs, h]
  | some k =>
    simp only [State.keyIs, h, beq_iff_eq, Option.some.injEq, exists_eq_left', ← keyByte_toNat, BitVec.toNat_inj]

/-! ### The skips on a key -/

/-- Settles O27: SKNP skips on the negation of the condition of SKP. -/
theorem keySkipsCompareTheWholeByte : Obligations.KeySkipsCompareTheWholeByte := by
  intro x s
  simp only [← keyIs_iff, Bool.not_eq_true]
  refine ⟨⟨_, rfl, s.skipIf_frame _, fun hk => ?_, fun hk => ?_⟩, ⟨_, rfl, s.skipIf_frame _, fun hk => ?_, fun hk => ?_⟩⟩
  all_goals rw [State.skipIf_pc, hk]; rfl

/-! ### The key-wait -/

/-- Settles O44: the latch decides which of the two effects of the key-wait applies. -/
theorem keyWaitRewindsOrLoads : Obligations.KeyWaitRewindsOrLoads := by
  intro x s
  obtain ⟨t, ht⟩ := exec_total (.ldKey x) s
  obtain ⟨hnone, rfl⟩ | ⟨j, hj, rfl⟩ := exec_ldKey_next ht
  · refine ⟨fun _ => ⟨_, ht, rfl, s.setPc_frame _⟩, fun k hk => ?_⟩
    cases hnone.symm.trans hk
  · refine ⟨fun hnone => ?_, fun k hk => ?_⟩
    · cases hj.symm.trans hnone
    · obtain rfl : j = k := Option.some.inj (hj.symm.trans hk)
      exact ⟨_, ht, by rw [State.reg_setReg_self, keyByte_toNat], s.setReg_frame x _⟩

/-! ### The timers -/

/-- Settles O45. -/
theorem timersAreSetFromARegister : Obligations.TimersAreSetFromARegister :=
  fun x _ => ⟨⟨_, rfl, rfl, exec_frame (i := .ldDelay x) rfl rfl⟩, ⟨_, rfl, rfl, exec_frame (i := .ldSound x) rfl rfl⟩⟩

end Sys2Proof.Machine

/-! ## The faults of a cycle (O12) -/

namespace Sys2Proof.Machine

variable {s : State} {strict : Bool} {r : Option Byte} {w : Word} {i : Instr}

/-- Fault entry undoes the PC advance of the cycle, and the word it records is the fetched one (R126). -/
theorem raiseFault_beginCycle (hd : decodeWord strict w = .ok i) (k : FaultKind) (n : Nat) :
    (s.beginCycle r).raiseFault k i n = { s with run := .halted, fault := some ⟨k, s.pc, some w, n⟩, rnd := r } := by
  have hback : (s.beginCycle r).pc - 2 = s.pc := BitVec.add_sub_cancel _ _
  rw [State.raiseFault_eq, hback, encode_of_decodeWord hd]
  rfl

/-- Settles O12: the cycle of a decoded instruction answers, and `cycleWith_decoded_cases` names its two answers. -/
theorem faultsAreExactlyTheListedAndPrecise : Obligations.FaultsAreExactlyTheListedAndPrecise := by
  refine ⟨rfl, rfl, rfl, rfl, fun strict r s hrun hw => ⟨_, rfl, cycleWith_of_fetchWord_none strict r hrun hw⟩, ?_⟩
  intro strict r s w i hrun hw hd
  obtain ⟨u, hu⟩ := exec_total i (s.beginCycle r)
  have hcycle := cycleWith_of_decodeWord hrun hw hd hu
  obtain ⟨hf, t, ht, e⟩ | ⟨k, n, hf, e⟩ := cycleWith_decoded_cases hrun hw hd hcycle
  · have hkept : t.fault = s.fault := exec_keeps_fault (s := s.beginCycle r) hf ht
    have hruns : t.run = .running := (exec_keeps_run (s := s.beginCycle r) hf ht).trans hrun
    refine ⟨fun k n hfault => ?_, fun _ => ⟨_, hcycle.trans (congrArg _ e), hruns, hkept, rfl⟩⟩
    cases hf.symm.trans hfault
  · refine ⟨fun k' n' hfault => ⟨_, rfl, ?_⟩, fun hnone => ?_⟩
    · cases hf.symm.trans hfault
      rw [hcycle, e, raiseFault_beginCycle hd]
      rfl
    · cases hf.symm.trans hnone

end Sys2Proof.Machine

/-! ## The host's transactions (O46, O47, O48) -/

namespace Sys2Proof.Machine

variable {s t : State} {rest : List Transaction}

theorem step_of_pending {q : Transaction} (hp : s.pending = q :: rest) :
    step s = transact parameters q { s with pending := rest } := by
  obtain ⟨hnil, -⟩ | ⟨q', rest', hcons, e⟩ := step_cases s
  · cases hnil.symm.trans hp
  · cases hcons.symm.trans hp
    exact e

/-! ### Frames -/

theorem State.setPending_frame (s : State) (rest : List Transaction) :
    Frame s { s with pending := rest } (These [.pending]) := by
  intro p hp
  cases p with
  | pending => exact absurd (List.mem_singleton.2 rfl) hp
  | _ => rfl

/-- A transaction that writes the listed parts also leaves the pending list and answers. -/
theorem Frame.pending_reply {ps : List Part} (h : Frame { s with pending := rest } t (These ps)) (q : Reply) :
    Frame s (t.answer q) (These (ps ++ [.pending, .reply])) := by
  have heffect : Frame { s with pending := rest } (t.answer q) (These (ps ++ [.reply])) :=
    h.trans_mono (t.answer_frame q) (by simp +contextual [These]) (by simp +contextual [These])
  refine (s.setPending_frame rest).trans_mono heffect (by simp +contextual [These]) fun p hp => ?_
  obtain hp | hp := List.mem_append.1 hp
  · exact List.mem_append_left _ hp
  · exact List.mem_append_right _ (List.mem_cons_of_mem _ hp)

theorem State.setKey_frame (s : State) (k : Option Nibble) : Frame s (s.setKey k) (These [.key]) := by
  intro p hp
  cases p with
  | key => exact absurd (List.mem_singleton.2 rfl) hp
  | _ => rfl

theorem State.timerTick_frame (s : State) : Frame s s.timerTick (These [.dt, .st]) := by
  intro p hp
  cases p with
  | dt | st => exact absurd (by simp [These]) hp
  | _ => rfl

/-! ### The transactions -/

/-- Truncated subtraction says both branches of R136: 0 stays 0. -/
theorem tickTimer_toNat (b : Byte) : (tickTimer b).toNat = b.toNat - 1 := by
  unfold tickTimer
  split
  case isTrue h => rw [h]; rfl
  case isFalse h => bv_omega

/-- Settles O46. -/
theorem timerTickStopsAtZero : Obligations.TimerTickStopsAtZero :=
  fun _ _ hp => ⟨_, step_of_pending hp, rfl, tickTimer_toNat _, tickTimer_toNat _, (State.timerTick_frame _).pending_reply _⟩

/-- Settles O47. -/
theorem setKeyOverwritesTheLatch : Obligations.SetKeyOverwritesTheLatch :=
  fun _ k _ hp => ⟨_, step_of_pending hp, rfl, rfl, (State.setKey_frame _ k).pending_reply _⟩

theorem soundOn_iff : s.soundOn = true ↔ s.st ≠ 0 := bne_iff_ne

/-- Settles O48: a read is its reply and nothing else, so its own frame is empty. -/
theorem readsReportTheState : Obligations.ReadsReportTheState := by
  intro s q rest hp hq
  have hframe (a : Reply) : Frame s (State.answer { s with pending := rest } a) (These [.pending, .reply]) :=
    (Frame.refl _ (These [])).pending_reply a
  have hstep := step_of_pending hp
  simp only [List.mem_cons, List.not_mem_nil, or_false] at hq
  obtain rfl | rfl | rfl | rfl := hq
  · exact ⟨_, hstep, rfl, hframe _, fun _ => rfl, nofun, nofun, nofun⟩
  · exact ⟨_, hstep, rfl, hframe _, nofun, fun _ => rfl, nofun, nofun⟩
  · exact ⟨_, hstep, rfl, hframe _, nofun, nofun, fun _ => ⟨_, rfl, soundOn_iff⟩, nofun⟩
  · exact ⟨_, hstep, rfl, hframe _, nofun, nofun, nofun, fun _ => rfl⟩

end Sys2Proof.Machine

/-! ## The size of a ROM image (O50) -/

namespace Sys2Proof.Machine

/-- The step that refuses an image that does not fit: only the pending list and the reply change (R145). -/
theorem stepWith_powerOn_tooLarge (p : Parameters) (s : State) {rom : List Byte} {rest : List Transaction}
    (hp : s.pending = .powerOn rom :: rest) (hlen : 3584 < rom.length) :
    stepWith p s = .next (State.answer { s with pending := rest } .romTooLarge) := by
  obtain ⟨-, e⟩ | ⟨h, -⟩ := State.powerOn_cases { s with pending := rest } p rom
  · simp only [stepWith, hp, transact, e]
  · exact absurd h hlen.not_ge

/-- Settles O50: the image is refused or fits, and each step is known. -/
theorem romSizeIsChecked : Obligations.RomSizeIsChecked := by
  intro p s rom rest hp
  obtain hbig | hfits := Nat.lt_or_ge 3584 rom.length
  · exact ⟨_, stepWith_powerOn_tooLarge p s hp hbig, rfl,
      fun _ => ⟨rfl, (Frame.refl _ (These [])).pending_reply .romTooLarge⟩, fun h => absurd h hbig.not_ge⟩
  · exact ⟨_, stepWith_powerOn p s hp hfits, rfl, fun h => absurd hfits h.not_ge, fun _ => rfl⟩

end Sys2Proof.Machine
